-- ==== Sys2Proof/Word.lean ====
section
/-! DEFINITION. The bit vectors of the block, and the codes of the state register. -/

namespace Sys2Proof

/-- One received byte, one frame-buffer cell (R7, R23). -/
abbrev Byte := BitVec 8

/-- The decode word of one edge, 17 bits (R66). -/
abbrev Word := BitVec 17

/-- The state register `st`, 3 bits (R21). -/
abbrev StCode := BitVec 3

/-- The field `cnt` of the decode word, 3 bits (R66). -/
abbrev Cnt := BitVec 3

/-- `WAIT_HDR`, the source's WaitingForHeader (R67). -/
@[simp] abbrev St.waitHdr : StCode := 0b000#3
/-- `COLLECT_ID`, the source's CollectingIdentity (R67). -/
@[simp] abbrev St.collectId : StCode := 0b001#3
/-- `COLLECT_DATA`, the source's CollectingData (R67). -/
@[simp] abbrev St.collectData : StCode := 0b010#3
/-- `COLLECT_CK`, the source's CollectingChecksum (R67). -/
@[simp] abbrev St.collectCk : StCode := 0b011#3
/-- `COLLECT_END`, the source's CollectingEnd (R67). -/
@[simp] abbrev St.collectEnd : StCode := 0b100#3

end Sys2Proof
end

