-- ==== Sys2Proof/Config.lean ====
section
/-! DEFINITION. What is fixed when the block is built (R5, R181), and the values the spec leaves free. -/

namespace Sys2Proof

/-- The build-time parameters (R5, D19, R181): the argument of the direct reading, of the step `stepAt`, of the
frame predicates and of the ports. `FRAME_LEN` is not free (R5): it is `Config.frameLen`. -/
structure Config where
  /-- `HDR_MARK`, the header marker byte. -/
  hdrMark : Byte
  /-- `ID_LEN`, the number of identification bytes. -/
  idLen : Nat
  /-- `DATA_LEN`, the number of bytes between identification and checksum: magic, command, intensity,
  colorBalance (conflict C1). -/
  dataLen : Nat
  /-- `END_MARK`, the terminator byte. -/
  endMark : Byte
  /-- `IGNORE_MAGIC`, the magic value of an ignorable frame. -/
  ignoreMagic : Byte
  /-- `CK_WIDTH`: the checksum is a sum modulo 2 to this power. -/
  ckWidth : Nat
  /-- `CNT_W`, the width of the phase counter. -/
  cntW : Nat
deriving DecidableEq, Repr

/-- The defaults of R5. -/
abbrev Config.std : Config where
  hdrMark := 0x53#8
  idLen := 7
  dataLen := 4
  endMark := 0x00#8
  ignoreMagic := 0xA4#8
  ckWidth := 8
  cntW := 3

/-- `FRAME_LEN` = 1 + `ID_LEN` + `DATA_LEN` + 1 + 1 (R5). -/
@[simp] abbrev Config.frameLen (cfg : Config) : Nat := 1 + cfg.idLen + cfg.dataLen + 1 + 1

/-- The position of the first data byte. With the positions below it is how those of R61 move with the lengths
(R5, R62; log 9). -/
@[simp] abbrev Config.dataPos (cfg : Config) : Nat := 1 + cfg.idLen
/-- The position of the checksum byte. -/
@[simp] abbrev Config.ckPos (cfg : Config) : Nat := 1 + cfg.idLen + cfg.dataLen
/-- The position of the end byte. -/
@[simp] abbrev Config.endPos (cfg : Config) : Nat := 1 + cfg.idLen + cfg.dataLen + 1

/-- The width of a cell address: the smallest that reaches every cell, 4 bits at the defaults (R40; log 9). -/
abbrev Config.addrW (cfg : Config) : Nat := Nat.log2 (cfg.frameLen - 1) + 1

/-- An address of the frame buffer (R40). -/
abbrev CellAddr (cfg : Config) := BitVec cfg.addrW

/-- The `frame_out` port, 112 bits at the defaults (R27, R44). -/
abbrev FrameBits (cfg : Config) := BitVec (8 * cfg.frameLen)

/-- The parameters make a block: each collecting phase has a byte, the counter can count each phase (`CNT_W` of R5),
and the checksum fits its byte (R61; log 9). -/
def Config.valid (cfg : Config) : Bool :=
  decide (1 ≤ cfg.idLen) && decide (1 ≤ cfg.dataLen) &&
  decide (max cfg.idLen cfg.dataLen - 1 < 2 ^ cfg.cntW) &&
  decide (1 ≤ cfg.ckWidth) && decide (cfg.ckWidth ≤ 8)

/-- The opcode table, rebuilt with the byte values, may be used: it is written for the default lengths (R5) and for
a decode word with 3 bits of `cnt` (R66). -/
def Config.tableValid (cfg : Config) : Bool :=
  decide (cfg.idLen = 7) && decide (cfg.dataLen = 4) && decide (cfg.cntW = 3)

/-! Free values. Each is a constant with no body, so no proof can see what it is. -/

/-- What `frame_out` shows outside every frame-output window: any value (R136, I1). It may depend on the edge
number and on every register, `cnt` as a number (log 3). -/
opaque Config.freeFrameOut (cfg : Config) : Nat → StCode → Nat → List Host.Cell → FrameBits cfg

/-- What `frame_ignorable` shows outside every frame-output window: any value (R136, I1; log 3). -/
opaque Config.freeIgnorable (cfg : Config) : Nat → StCode → Nat → List Host.Cell → Bool

/-- Data field k of a frame whose `DATA_LEN` leaves that field no position, as in the 13-byte reading with 3 data
bytes: any value (C1, I6; log 9). It may depend on the frame's data bytes. -/
opaque Config.freeField : Nat → List Byte → Byte

/-- `st` before the first reset edge: any value, the illegal codes included (R172, I2; log 10). -/
opaque Config.powerUpSt : StCode
/-- `cnt` before the first reset edge (R172, I2; log 10). -/
opaque Config.powerUpCnt (cntW : Nat) : BitVec cntW
/-- Buffer cell p before the first reset edge (R172, I2; log 10). -/
opaque Config.powerUpByte : Nat → Byte
/-- `fv` before the first reset edge: `frame_valid` may pulse spuriously (R172, I2; log 10). -/
opaque Config.powerUpFv : Bool

end Sys2Proof
end

