-- ==== Sys2Proof/Syntax.lean ====
section
/-! DEFINITION. The operations of the block: one constructor per row of spec/opcode_table.json (R69). -/

namespace Sys2Proof

/-- One operation of the parser with its operand. The only operand that is neither state nor strobe is the byte
`b` consumed at the edge (R90: `perform(op, s, in_byte)`); RESET and IDLE ignore `in_byte` (R92, R93). -/
inductive Instr where
  /-- R92. -/
  | reset
  /-- R93. -/
  | idle
  /-- R94; `b` is `HDR_MARK`. -/
  | hdrMatch (b : Byte)
  /-- R95; `b` is not `HDR_MARK`. -/
  | hdrSkip (b : Byte)
  /-- R104, `st = COLLECT_ID` and `cnt = 7`. -/
  | recoverId (b : Byte)
  /-- R97. -/
  | idLast (b : Byte)
  /-- R96. -/
  | idAcc (b : Byte)
  /-- R104, `st = COLLECT_DATA` and `cnt` 4 to 7. -/
  | recoverData (b : Byte)
  /-- R99. -/
  | dataLast (b : Byte)
  /-- R98. -/
  | dataAcc (b : Byte)
  /-- R100. -/
  | ckCapture (b : Byte)
  /-- R101; `b` is `END_MARK`. -/
  | endAccept (b : Byte)
  /-- R102; `b` is `END_MARK`. -/
  | endRejectCk (b : Byte)
  /-- R103; `b` is not `END_MARK`. -/
  | endRejectTerm (b : Byte)
  /-- R104, `st` = 0b101. -/
  | recoverSt5 (b : Byte)
  /-- R104, `st` = 0b110 or 0b111. -/
  | recoverSt67 (b : Byte)
deriving DecidableEq, Repr

/-- The operation without its operand: what `decode` of R90 answers. -/
inductive Op where
  | reset | idle | hdrMatch | hdrSkip | recoverId | idLast | idAcc | recoverData | dataLast | dataAcc
  | ckCapture | endAccept | endRejectCk | endRejectTerm | recoverSt5 | recoverSt67
deriving DecidableEq, Repr

end Sys2Proof
end

