-- ==== Sys2Proof/WellFormed.lean ====
section
/-! DEFINITION. Which operands an operation admits: the byte conditions of the rows of R69. -/

namespace Sys2Proof

/-- The operand is one the operation's row can select (R69, the column "selects"). -/
def Instr.wf (cfg : Config) : Instr → Bool
  | .reset => true
  | .idle => true
  | .hdrMatch b => b == cfg.hdrMark
  | .hdrSkip b => b != cfg.hdrMark
  | .recoverId _ => true
  | .idLast _ => true
  | .idAcc _ => true
  | .recoverData _ => true
  | .dataLast _ => true
  | .dataAcc _ => true
  | .ckCapture _ => true
  | .endAccept b => b == cfg.endMark
  | .endRejectCk b => b == cfg.endMark
  | .endRejectTerm b => b != cfg.endMark
  | .recoverSt5 _ => true
  | .recoverSt67 _ => true

end Sys2Proof
end

