-- ==== Sys2Proof/Decode.lean ====
section
/-! DEFINITION. The operation map of R69 as a table, the priority decode of R68 over it, the encoder, and the
direct reading of the column "selects". -/

namespace Sys2Proof

/-! The fields of the decode word (R66). -/

/-- Bit 16. -/
def Word.rst (w : Word) : Bool := w.getLsbD 16
/-- Bit 15. -/
def Word.inValid (w : Word) : Bool := w.getLsbD 15
/-- Bit 14. -/
def Word.ckOk (w : Word) : Bool := w.getLsbD 14
/-- Bits 13 to 11. -/
def Word.st (w : Word) : StCode := w.extractLsb' 11 3
/-- Bits 10 to 8. -/
def Word.cnt (w : Word) : Cnt := w.extractLsb' 8 3
/-- Bits 7 to 0. -/
def Word.byte (w : Word) : Byte := w.extractLsb' 0 8

/-- The decode word `{rst, in_valid, ck_ok, st[2:0], cnt[2:0], b[7:0]}` (R66). -/
def Word.ofFields (rst inValid ckOk : Bool) (st : StCode) (cnt : Cnt) (b : Byte) : Word :=
  BitVec.ofBool rst ++ BitVec.ofBool inValid ++ BitVec.ofBool ckOk ++ st ++ cnt ++ b

/-- `w` with `b` in bits 7 to 0. -/
def Word.withByte (w : Word) (b : Byte) : Word := w.extractLsb' 8 9 ++ b

/-! The table. -/

/-- One row of the operation map (R69). -/
structure OpRow where
  /-- The row's priority number; the lowest fitting row wins (R68). -/
  priority : Nat
  /-- The row's mnemonic in spec/opcode_table.json. -/
  mnemonic : String
  /-- The row's match value. -/
  matchBits : Word
  /-- The row's mask. -/
  mask : Word
  /-- The operation the row selects. -/
  op : Op
deriving DecidableEq, Repr

/-- The row of each operation (R69). The match values of HDR_MATCH, END_ACCEPT and END_REJECT_CK hold `HDR_MARK`
and `END_MARK` in their low byte; with other parameter values the table is rebuilt with them (R5, R69). -/
def Op.row (cfg : Config) : Op → OpRow
  | .reset => ⟨1, "RESET", 0x10000, 0x10000, .reset⟩
  | .idle => ⟨2, "IDLE", 0x00000, 0x18000, .idle⟩
  | .hdrMatch => ⟨3, "HDR_MATCH", Word.withByte 0x08000 cfg.hdrMark, 0x1B8FF, .hdrMatch⟩
  | .hdrSkip => ⟨4, "HDR_SKIP", 0x08000, 0x1B800, .hdrSkip⟩
  | .recoverId => ⟨5, "RECOVER_ID", 0x08F00, 0x1BF00, .recoverId⟩
  | .idLast => ⟨6, "ID_LAST", 0x08E00, 0x1BF00, .idLast⟩
  | .idAcc => ⟨7, "ID_ACC", 0x08800, 0x1B800, .idAcc⟩
  | .recoverData => ⟨8, "RECOVER_DATA", 0x09400, 0x1BC00, .recoverData⟩
  | .dataLast => ⟨9, "DATA_LAST", 0x09300, 0x1BF00, .dataLast⟩
  | .dataAcc => ⟨10, "DATA_ACC", 0x09000, 0x1B800, .dataAcc⟩
  | .ckCapture => ⟨11, "CK_CAPTURE", 0x09800, 0x1B800, .ckCapture⟩
  | .endAccept => ⟨12, "END_ACCEPT", Word.withByte 0x0E000 cfg.endMark, 0x1F8FF, .endAccept⟩
  | .endRejectCk => ⟨13, "END_REJECT_CK", Word.withByte 0x0A000 cfg.endMark, 0x1F8FF, .endRejectCk⟩
  | .endRejectTerm => ⟨14, "END_REJECT_TERM", 0x0A000, 0x1B800, .endRejectTerm⟩
  | .recoverSt5 => ⟨15, "RECOVER_ST5", 0x0A800, 0x1B800, .recoverSt5⟩
  | .recoverSt67 => ⟨16, "RECOVER_ST67", 0x0B000, 0x1B000, .recoverSt67⟩

/-- The rows in ascending priority (R68, R69). -/
def opTable (cfg : Config) : List OpRow :=
  [Op.row cfg .reset, Op.row cfg .idle, Op.row cfg .hdrMatch, Op.row cfg .hdrSkip,
   Op.row cfg .recoverId, Op.row cfg .idLast, Op.row cfg .idAcc,
   Op.row cfg .recoverData, Op.row cfg .dataLast, Op.row cfg .dataAcc,
   Op.row cfg .ckCapture, Op.row cfg .endAccept, Op.row cfg .endRejectCk, Op.row cfg .endRejectTerm,
   Op.row cfg .recoverSt5, Op.row cfg .recoverSt67]

/-- The row fits the word: `(word & mask) == match` (R68). -/
def OpRow.fits (r : OpRow) (w : Word) : Bool := w &&& r.mask == r.matchBits

/-- The operation with the consumed byte as its operand. -/
def Op.instr (b : Byte) : Op → Instr
  | .reset => .reset
  | .idle => .idle
  | .hdrMatch => .hdrMatch b
  | .hdrSkip => .hdrSkip b
  | .recoverId => .recoverId b
  | .idLast => .idLast b
  | .idAcc => .idAcc b
  | .recoverData => .recoverData b
  | .dataLast => .dataLast b
  | .dataAcc => .dataAcc b
  | .ckCapture => .ckCapture b
  | .endAccept => .endAccept b
  | .endRejectCk => .endRejectCk b
  | .endRejectTerm => .endRejectTerm b
  | .recoverSt5 => .recoverSt5 b
  | .recoverSt67 => .recoverSt67 b

/-- The operation of an instruction. -/
def Instr.op : Instr → Op
  | .reset => .reset
  | .idle => .idle
  | .hdrMatch _ => .hdrMatch
  | .hdrSkip _ => .hdrSkip
  | .recoverId _ => .recoverId
  | .idLast _ => .idLast
  | .idAcc _ => .idAcc
  | .recoverData _ => .recoverData
  | .dataLast _ => .dataLast
  | .dataAcc _ => .dataAcc
  | .ckCapture _ => .ckCapture
  | .endAccept _ => .endAccept
  | .endRejectCk _ => .endRejectCk
  | .endRejectTerm _ => .endRejectTerm
  | .recoverSt5 _ => .recoverSt5
  | .recoverSt67 _ => .recoverSt67

/-- The operand of an instruction, for those that have one. -/
def Instr.byte? : Instr → Option Byte
  | .reset => none
  | .idle => none
  | .hdrMatch b => some b
  | .hdrSkip b => some b
  | .recoverId b => some b
  | .idLast b => some b
  | .idAcc b => some b
  | .recoverData b => some b
  | .dataLast b => some b
  | .dataAcc b => some b
  | .ckCapture b => some b
  | .endAccept b => some b
  | .endRejectCk b => some b
  | .endRejectTerm b => some b
  | .recoverSt5 b => some b
  | .recoverSt67 b => some b

/-! Decoding. -/

/-- Why the decoder refuses. -/
inductive DecodeError where
  /-- No row of the table fits. By R68 every 17-bit word fits a row, so no word is refused so (log 8). -/
  | noRow
  /-- A number that has a bit above bit 16: it is no decode word (R66). -/
  | tooWide
deriving DecidableEq, Repr

/-- The priority decode: the operation of the first fitting row (R68). -/
def decodeOp (cfg : Config) (w : Word) : Option Op :=
  ((opTable cfg).find? fun r => r.fits w).map OpRow.op

/-- The operation of a decode word with its operand, or a refusal by name. -/
def decode (cfg : Config) (w : Word) : Except DecodeError Instr :=
  match decodeOp cfg w with
  | some op => .ok (op.instr w.byte)
  | none => .error .noRow

/-- `decode` on a number whose bit 0 is the word's bit 0. -/
def decodeNat (cfg : Config) (n : Nat) : Except DecodeError Instr :=
  if n < 2 ^ 17 then decode cfg (BitVec.ofNat 17 n) else .error .tooWide

/-- The instruction the decoder reads from the `nbits` bits of `w`, numbered as spec/opcode_table.json numbers
them: one 17-bit word with bit 0 the least significant (log 12). -/
def decodeTableWord (nbits w : Nat) : Option Instr :=
  match decodeNat Config.std (w % 2 ^ nbits) with
  | .ok i => some i
  | .error _ => none

/-! Encoding. -/

/-- The decode word of an instruction: its row's match value with its operand in bits 7 to 0. The bits that the
row's mask leaves open are those of the match value (log 13). -/
def encode (cfg : Config) (i : Instr) : Word :=
  match i.byte? with
  | some b => Word.withByte (i.op.row cfg).matchBits b
  | none => (i.op.row cfg).matchBits

/-! The direct reading. -/

/-- The operation as the column "selects" of R69 words it: reset first, then idle, then the state and counter
cases of R94 to R104, with the lengths of `cfg`. It does not use the table; 95_test_vectors.md §2.1 compares the two
at the defaults. Where the lengths differ from the defaults the table may not be used, and this is the decode (R5). -/
def readDirect (cfg : Config) (rst inValid ckOk : Bool) (st : StCode) {cntW : Nat} (cnt : BitVec cntW) (b : Byte) :
    Instr :=
  if rst then .reset
  else if !inValid then .idle
  else if st = St.waitHdr then
    if b = cfg.hdrMark then .hdrMatch b else .hdrSkip b
  else if st = St.collectId then
    if cfg.idLen ≤ cnt.toNat then .recoverId b
    else if cnt.toNat = cfg.idLen - 1 then .idLast b
    else .idAcc b
  else if st = St.collectData then
    if cfg.dataLen ≤ cnt.toNat then .recoverData b
    else if cnt.toNat = cfg.dataLen - 1 then .dataLast b
    else .dataAcc b
  else if st = St.collectCk then .ckCapture b
  else if st = St.collectEnd then
    if b = cfg.endMark then (if ckOk then .endAccept b else .endRejectCk b) else .endRejectTerm b
  else if st = 0b101#3 then .recoverSt5 b
  else .recoverSt67 b

end Sys2Proof
end

