-- ==== Sys2Proof/Machine/Memory.lean ====
section
/-! DEFINITION. The frame buffer as memory: the block's one address space, `FRAME_LEN` byte cells, 14 at
the defaults (R40, R48). -/

namespace Sys2Proof.Machine

/-- The frame buffer: the cells that differ from their reset value, by rising address. -/
abbrev Memory := List Host.Cell

/-- What an unlisted cell reads as: 0x00, the value reset gives every cell (R32; log 11). -/
abbrev Memory.unlisted : Byte := 0x00#8

/-- Cell `p`. -/
def Memory.read (m : Memory) (p : Nat) : Byte :=
  match m with
  | [] => Memory.unlisted
  | (k, v) :: rest => if k = p then v else Memory.read rest p

/-- Put the cell `(p, v)` before the first cell of a higher address. -/
def Memory.insert (m : Memory) (p : Nat) (v : Byte) : Memory :=
  match m with
  | [] => [(p, v)]
  | (k, w) :: rest => if p < k then (p, v) :: (k, w) :: rest else (k, w) :: Memory.insert rest p v

/-- The memory without cell `p`. -/
def Memory.erase (m : Memory) (p : Nat) : Memory :=
  match m with
  | [] => []
  | (k, w) :: rest => if k = p then Memory.erase rest p else (k, w) :: Memory.erase rest p

/-- `buf[p] <- v` (R8), in canonical form: writing the value an unlisted cell reads as removes the entry. -/
def Memory.write (m : Memory) (p : Nat) (v : Byte) : Memory :=
  if v = Memory.unlisted then Memory.erase m p else Memory.insert (Memory.erase m p) p v

/-- Every address of `m` is at least `lo`, they rise strictly, each is one of the buffer's `n` cells, and no entry is
equal to what an unlisted cell reads as. -/
def Memory.wfFrom (n lo : Nat) (m : Memory) : Bool :=
  match m with
  | [] => true
  | (k, v) :: rest =>
    decide (lo ≤ k) && decide (k < n) && decide (v ≠ Memory.unlisted) && Memory.wfFrom n (k + 1) rest

/-- The canonical form of a buffer of `FRAME_LEN` cells: two buffers in it that read alike are equal. -/
def Memory.wf (cfg : Config) (m : Memory) : Bool := Memory.wfFrom cfg.frameLen 0 m

/-- Every cell 0x00: `for p in 0..13: buf[p] <- 0x00` (R92). -/
def Memory.clear : Memory := []

/-- The buffer whose cells 0, 1, … hold the values of `f`, for the first `n` cells. -/
def Memory.fill (f : Nat → Byte) (n : Nat) : Memory :=
  match n with
  | 0 => Memory.clear
  | k + 1 => Memory.write (Memory.fill f k) k (f k)

end Sys2Proof.Machine
end

