-- ==== Sys2Proof/Machine/Frame.lean ====
section
/-! DEFINITION. The frame (R61, R62), the checksum (R130 to R133), the frame predicates and field views
(R134, R138, R139), and the packing of `frame_out` (R44). -/

namespace Sys2Proof.Machine

/-- A frame, phase by phase in wire order (R42, R61, R62). -/
structure Frame where
  /-- Position 0. -/
  header : Byte
  /-- `ID_LEN` bytes, the one received first at the head (R43, R139). -/
  identification : List Byte
  /-- `DATA_LEN` bytes: magic, command, intensity, colorBalance (R5). Below 4, the last fields have no position (C1). -/
  data : List Byte
  /-- The checksum byte, position 12 at the defaults. -/
  checksum : Byte
  /-- The terminator, position 13 at the defaults. -/
  endByte : Byte
deriving DecidableEq, Repr

/-- The frame has the lengths of `cfg` (R62). -/
def Frame.sized (cfg : Config) (f : Frame) : Bool :=
  decide (f.identification.length = cfg.idLen) && decide (f.data.length = cfg.dataLen)

/-- The magic byte, position 8 at the defaults. -/
def Frame.magic (f : Frame) : Byte := f.data.getD 0 (Config.freeField 0 f.data)
/-- The command byte, position 9 at the defaults. -/
def Frame.command (f : Frame) : Byte := f.data.getD 1 (Config.freeField 1 f.data)
/-- The intensity byte, position 10 at the defaults. -/
def Frame.intensity (f : Frame) : Byte := f.data.getD 2 (Config.freeField 2 f.data)
/-- The colorBalance byte, position 11 at the defaults. -/
def Frame.colorBalance (f : Frame) : Byte := f.data.getD 3 (Config.freeField 3 f.data)

/-- The bytes in wire order: the byte at index k is the one stored at `buf[k]` (R42). -/
def Frame.bytes (f : Frame) : List Byte :=
  f.header :: (f.identification ++ f.data ++ [f.checksum, f.endByte])

/-- The frame whose byte at position p is `read p`. -/
def Frame.ofRead (cfg : Config) (read : Nat → Byte) : Frame where
  header := read 0
  identification := (List.range cfg.idLen).map fun k => read (1 + k)
  data := (List.range cfg.dataLen).map fun k => read (cfg.dataPos + k)
  checksum := read cfg.ckPos
  endByte := read cfg.endPos

/-- The frame the buffer holds (R23, R42). -/
def Frame.ofBuf (cfg : Config) (m : Memory) : Frame := Frame.ofRead cfg m.read

/-- The bytes as one number, the first byte lowest. -/
def packBytes (bs : List Byte) : Nat :=
  match bs with
  | [] => 0
  | b :: rest => b.toNat + 2 ^ 8 * packBytes rest

/-- `frame_out[8p+7:8p] = buf[p]`: position 0 in the least significant byte (R27, R44). -/
def Frame.pack (cfg : Config) (f : Frame) : FrameBits cfg := BitVec.ofNat _ (packBytes f.bytes)

/-- The frame a value of `frame_out` shows: the views as slices of the port (R139). -/
def Frame.ofPort (cfg : Config) (w : FrameBits cfg) : Frame := Frame.ofRead cfg fun p => w.extractLsb' (8 * p) 8

/-- The sum of three bytes taken on 10 bits, modulo 2 to the power `n` (R5, R130). -/
def sumBits (n : Nat) (c i k : Byte) : BitVec n := (c.setWidth 10 + i.setWidth 10 + k.setWidth 10).setWidth n

/-- `sum8(c, i, k)`, the sum at the default `CK_WIDTH` (R8, R130). -/
def sum8 (c i k : Byte) : Byte := sumBits 8 c i k

/-- `validateChecksum(f)` (R131): the checksum byte is the sum modulo 2 to the power `CK_WIDTH`. -/
def Frame.validateChecksum (cfg : Config) (f : Frame) : Bool :=
  (sumBits cfg.ckWidth f.command f.intensity f.colorBalance).toNat == f.checksum.toNat

/-- `computeChecksum(f)` (R132). The parser never applies it; it is the writer's form of the same function. -/
def Frame.computeChecksum (cfg : Config) (f : Frame) : Frame :=
  { f with checksum := (sumBits cfg.ckWidth f.command f.intensity f.colorBalance).setWidth 8 }

/-- The source's well-formed frame: the checksum holds and the end byte is `END_MARK` (R133). -/
def Frame.wellFormed (cfg : Config) (f : Frame) : Bool := f.validateChecksum cfg && f.endByte == cfg.endMark

/-- The acceptance encoding: of the right length, well-formed and headed by `HDR_MARK`; no other byte value is
checked (R63). -/
def Frame.accepted (cfg : Config) (f : Frame) : Bool :=
  f.sized cfg && f.header == cfg.hdrMark && f.wellFormed cfg

/-- `canIgnoreMagic(f)` (R134). -/
def Frame.canIgnoreMagic (cfg : Config) (f : Frame) : Bool := f.magic == cfg.ignoreMagic

/-- The consumer's first test on an accepted frame: ignorable, or checksum invalid (R137). The consumer itself is
outside the block (R4). -/
def Frame.consumerDiscards (cfg : Config) (f : Frame) : Bool := f.canIgnoreMagic cfg || !f.validateChecksum cfg

/-- The command enumeration (R64). -/
inductive Command where
  | on | off | automatic | startup | unknown
deriving DecidableEq, Repr

/-- `decodeCommand`, a total function of the command byte (R138). -/
def decodeCommand (x : Byte) : Command :=
  if x = 0x01#8 then .on
  else if x = 0x10#8 then .off
  else if x = 0x02#8 then .automatic
  else if x = 0xE0#8 then .startup
  else .unknown

end Sys2Proof.Machine
end

