-- ==== Sys2Proof/Machine/State.lean ====
section
/-! DEFINITION. The state of the block (R20), the events a model records (R90, R150), and why a step can stop. -/

namespace Sys2Proof.Machine

/-- What a neighbour presents at one rising edge: `{rst, in_valid, in_byte[7:0]}` (R27, R60). -/
structure EdgeInput where
  /-- `rst`: a reset edge, whatever the other inputs hold. -/
  rst : Bool
  /-- `in_valid`: at an edge without `rst`, consume `in_byte`. -/
  inValid : Bool
  /-- `in_byte`: ignored when `in_valid` is 0. -/
  inByte : Byte
deriving DecidableEq, Repr

/-- A snapshot of the block's four registers (R20), as a discard records it (R150). -/
structure Regs (cntW : Nat := 3) where
  /-- `st` -/
  st : StCode
  /-- `cnt` -/
  cnt : BitVec cntW
  /-- `buf` -/
  buf : Memory
  /-- `fv` -/
  fv : Bool
deriving DecidableEq, Repr

/-- Why a frame is discarded (R150). -/
inductive Cause where
  /-- Code 1: `ck_ok = 0` at the `COLLECT_END` edge. -/
  | ck
  /-- Code 2: the end byte is not `END_MARK`. -/
  | term
  /-- Code 3: a reset edge while `st` is not `WAIT_HDR`. -/
  | reset
  /-- Code 4: a consuming edge in an illegal state. -/
  | recover
deriving DecidableEq, Repr

/-- What a discard records (R150, the column "recorded value"). -/
inductive DiscardRecord (cntW : Nat := 3) where
  /-- CK, TERM: the bytes before the end byte, 13 at the defaults, and the end byte. -/
  | endOfFrame (collected : List Byte) (endByte : Byte)
  /-- RESET: the state before the edge. -/
  | before (regs : Regs cntW)
  /-- RECOVER: the state before the edge and the byte dropped. -/
  | beforeAndByte (regs : Regs cntW) (b : Byte)
deriving DecidableEq, Repr

/-- One event `discard(reasons)` (R150), with the number of its edge. It is model-only: no port shows it and the
hardware keeps no count of it (log 6). -/
structure Discard (cntW : Nat := 3) where
  /-- The edge's number. -/
  edge : Nat
  /-- The causes, by rising code, none twice (R153: one discard with both when both checks fail). -/
  reasons : List Cause
  /-- What is recorded. -/
  record : DiscardRecord cntW
deriving DecidableEq, Repr

/-- One emitted frame with the number of its edge: the observation of a run (R90, D24; log 5). -/
structure Emission where
  /-- The edge's number. -/
  edge : Nat
  /-- The frame, the buffer as the edge leaves it. -/
  frame : Frame
deriving DecidableEq, Repr

/-- The machine. The block's complete state is `st`, `cnt`, `buf` and `fv` (R20); the fields after them are the
model's own. `State` alone is the block of the default `CNT_W` = 3; a block built with the parameters `cfg` has the
state `State cfg.cntW` (R5). -/
structure State (cntW : Nat := 3) where
  /-- `st`, the parser state (R21). -/
  st : StCode
  /-- `cnt`, the phase counter (R22). -/
  cnt : BitVec cntW
  /-- `buf[0..13]` at the defaults, the frame buffer (R23). -/
  buf : Memory
  /-- `fv`, the frame-valid register (R24). -/
  fv : Bool
  /-- Model: a frame-output window is open (R136; log 4). -/
  window : Bool
  /-- Model: how many edges have been taken (R90, D24; log 5). -/
  edge : Nat
  /-- Model: the frames emitted, oldest first (R90, D24; log 5). -/
  emitted : List Emission
  /-- Model: the discards recorded, oldest first (R150; log 6). -/
  discards : List (Discard cntW)
  /-- Model: the inputs of the edges still to come, the next first (D24; log 1). -/
  inputs : List EdgeInput
deriving DecidableEq, Repr

/-- The one fault. -/
inductive Fault where
  /-- A store to a cell that does not exist: cell 14 or 15 at the defaults (R40). Raised by DATA_ACC and DATA_LAST where
  `exec` is applied to a state with `cnt` 6 or 7, which the decoder never does. Safe: no step raises it (log 7). -/
  | noSuchCell (a : Nat)
deriving DecidableEq, Repr

/-- Why a step gives no meaning. -/
inductive Refusal where
  /-- An operation that has no meaning yet. Raised by no arm. Safe. -/
  | notModelled (mnemonic : String)
  /-- The decoder found no row for the edge's decode word. Raised by the step. Safe: by R68 there is no such word,
  so no step raises it (log 8). -/
  | noRow
deriving DecidableEq, Repr

/-- The outcome of a step of this machine. -/
abbrev Result (cntW : Nat := 3) := Host.Outcome (State cntW) Fault Refusal

/-- The block right after a reset edge: the values of R32; no window is open (R136); the model's own fields are
empty, with no input placed (logs 1, 5, 6). -/
def State.resetAt (cntW : Nat) : State cntW where
  st := St.waitHdr
  cnt := 0#cntW
  buf := Memory.clear
  fv := false
  window := false
  edge := 0
  emitted := []
  discards := []
  inputs := []

/-- The machine right after a reset edge, at the default parameters. -/
def State.reset : State := State.resetAt 3

end Sys2Proof.Machine
end

