-- ==== Sys2Proof/Machine/Operands.lean ====
section
/-! DEFINITION. The operand forms: which cell a collected byte goes to (R40, R72). At the defaults an address is 4
bits wide. -/

namespace Sys2Proof.Machine

/-- Cell 0, the header's (R48). -/
def headerCell (cfg : Config) : CellAddr cfg := BitVec.ofNat cfg.addrW 0

/-- Cell `1 + zext_4(cnt)`, where `COLLECT_ID` stores (R40, R72). -/
def idCell (cfg : Config) {cntW : Nat} (cnt : BitVec cntW) : CellAddr cfg :=
  BitVec.ofNat cfg.addrW 1 + cnt.setWidth cfg.addrW

/-- Cell `8 + zext_4(cnt)` at the defaults, where `COLLECT_DATA` stores (R40, R72). -/
def dataCell (cfg : Config) {cntW : Nat} (cnt : BitVec cntW) : CellAddr cfg :=
  BitVec.ofNat cfg.addrW cfg.dataPos + cnt.setWidth cfg.addrW

/-- Cell 12 at the defaults, the checksum's (R48). -/
def checksumCell (cfg : Config) : CellAddr cfg := BitVec.ofNat cfg.addrW cfg.ckPos

/-- Cell 13 at the defaults, the end byte's (R48). -/
def endCell (cfg : Config) : CellAddr cfg := BitVec.ofNat cfg.addrW cfg.endPos

end Sys2Proof.Machine
end

