-- ==== Sys2Proof/Machine/Flags.lean ====
section
/-! DEFINITION. The combinational signals over the registers: `ck_ok` (R25), the decode word (R66), and the output
ports (R24, R26, R27, R136). -/

namespace Sys2Proof.Machine

/-- `ck_ok`, at the defaults `sum8(buf[9], buf[10], buf[11]) == buf[12]` (R25): the source's `validateChecksum` on
the parser's own buffer (R131). -/
def ckOk (cfg : Config) (m : Memory) : Bool := (Frame.ofBuf cfg m).validateChecksum cfg

/-- The decode word of an edge with input `x` in state `s` (R66). It has 3 bits of `cnt`, so it is the word of R66 for
a block with `CNT_W` = 3. -/
def wordOf (cfg : Config) (x : EdgeInput) {cntW : Nat} (s : State cntW) : Word :=
  Word.ofFields x.rst x.inValid (ckOk cfg s.buf) s.st (s.cnt.setWidth 3) x.inByte

/-- The operation of an edge with its operand: by the table where the table is valid (R68), and elsewhere by the
direct reading, because the table may not be used there (R5). -/
def selectInstr (cfg : Config) (x : EdgeInput) {cntW : Nat} (s : State cntW) : Except DecodeError Instr :=
  if cfg.tableValid then decode cfg (wordOf cfg x s)
  else .ok (readDirect cfg x.rst x.inValid (ckOk cfg s.buf) s.st s.cnt x.inByte)

/-- The `frame_valid` port: the register `fv` (R24, R27). -/
def State.frameValid {cntW : Nat} (s : State cntW) : Bool := s.fv

/-- The `frame_out` port: inside a frame-output window the emitted frame, which `buf` holds; outside any value
(R27, R44, R136; log 3). -/
def State.frameOut (cfg : Config) {cntW : Nat} (s : State cntW) : FrameBits cfg :=
  if s.window then (Frame.ofBuf cfg s.buf).pack cfg else Config.freeFrameOut cfg s.edge s.st s.cnt.toNat s.buf

/-- The `frame_ignorable` port: inside a window `canIgnoreMagic` of the emitted frame, outside any value
(R26, R134, R136; log 3). -/
def State.frameIgnorable (cfg : Config) {cntW : Nat} (s : State cntW) : Bool :=
  if s.window then (Frame.ofBuf cfg s.buf).canIgnoreMagic cfg
  else Config.freeIgnorable cfg s.edge s.st s.cnt.toNat s.buf

end Sys2Proof.Machine
end

