-- ==== Sys2Proof/Machine/Ops.lean ====
section
/-! DEFINITION. The operations the meanings share: writing registers and cells, emitting a frame, and discarding
one (R8). All writes of one rule take effect at one edge and all its reads see the state before it, so a meaning
passes what it reads to these as arguments. They hold for every value of the parameters. -/

namespace Sys2Proof.Machine

variable {cntW : Nat}

/-- `st <- st'; cnt <- cnt'` (R8). -/
def State.setSeq (st : StCode) (cnt : BitVec cntW) (s : State cntW) : State cntW := { s with st := st, cnt := cnt }

/-- `fv <- 0` (R8, R24). -/
def State.clearFv (s : State cntW) : State cntW := { s with fv := false }

/-- What every reset and every consuming edge does: `fv <- 0` and any open frame-output window closes (R136). -/
def State.closeWindow (s : State cntW) : State cntW := { s with fv := false, window := false }

/-- The buffer replaced. -/
def State.setBuf (m : Memory) (s : State cntW) : State cntW := { s with buf := m }

/-- The four registers (R20). -/
def State.regs (s : State cntW) : Regs cntW := { st := s.st, cnt := s.cnt, buf := s.buf, fv := s.fv }

/-- `buf[a] <- v`: one byte to one cell. A cell at `FRAME_LEN` or above does not exist (R40; log 7). -/
def storeCell (cfg : Config) (a : CellAddr cfg) (v : Byte) (s : State cntW) : Result cntW :=
  if a.toNat < cfg.frameLen then .next (s.setBuf (s.buf.write a.toNat v)) else .fault (.noSuchCell a.toNat)

/-- `emit`: `fv <- 1`, the frame-output window opens, and the frame the buffer now holds is recorded
(R8, R90, R101, R136). -/
def State.emit (cfg : Config) (s : State cntW) : State cntW :=
  { s with
    fv := true, window := true,
    emitted := s.emitted ++ [{ edge := s.edge, frame := Frame.ofBuf cfg s.buf }] }

/-- TAKING A DISCARD, the analogue of an exception entry (R150, R154): the event is recorded, and control goes to
`WAIT_HDR` with `cnt` 0 and `fv` 0. Nothing is saved in a register. There is no return from a discard: it is over
at its edge (R155). -/
def State.discard (reasons : List Cause) (record : DiscardRecord cntW) (s : State cntW) : State cntW :=
  { s with
    st := St.waitHdr, cnt := 0#cntW, fv := false, window := false,
    discards := s.discards ++ [{ edge := s.edge, reasons := reasons, record := record }] }

/-- Carry on from a store that did not fault. -/
def thenDo (r : Result cntW) (f : State cntW → State cntW) : Result cntW :=
  match r with
  | .next s => .next (f s)
  | .fault e => .fault e
  | .refused e => .refused e

/-- The bytes before the end byte, at the defaults the 13 bytes `buf[0..12]`, that a discard at the end of a frame
records (R150). -/
def collectedBytes (cfg : Config) (m : Memory) : List Byte := (List.range cfg.endPos).map m.read

/-- A collecting edge: the byte goes to a cell, `st` and `cnt` take new values, `fv <- 0`, and an open window
closes (R96 to R100, R136). -/
def collect (cfg : Config) (a : CellAddr cfg) (b : Byte) (st : StCode) (cnt : BitVec cntW) (s : State cntW) :
    Result cntW :=
  storeCell cfg a b (s.closeWindow.setSeq st cnt)

/-- A rejecting edge: the end byte goes to its cell and the frame is discarded (R102, R103). -/
def reject (cfg : Config) (reasons : List Cause) (b : Byte) (s : State cntW) : Result cntW :=
  thenDo (storeCell cfg (endCell cfg) b s) (State.discard reasons (.endOfFrame (collectedBytes cfg s.buf) b))

/-- A recovering edge: `b` is dropped, not inspected for `HDR_MARK` (R104). -/
def recover (b : Byte) (s : State cntW) : Result cntW :=
  .next (s.discard [.recover] (.beforeAndByte s.regs b))

/-! The model's own bookkeeping around an edge. -/

/-- The edge begins: its input leaves the queue and the edges' count advances (D24; logs 1, 5). -/
def State.advance (rest : List EdgeInput) (s : State cntW) : State cntW :=
  { s with inputs := rest, edge := s.edge + 1 }

/-- The same state with these inputs to come. -/
def State.present (xs : List EdgeInput) (s : State cntW) : State cntW := { s with inputs := xs }

/-- The buffer with `ck_ok` made to be `c`, by cell 12 alone and only where it must change. -/
def Memory.withCkOk (c : Bool) (m : Memory) : Memory :=
  if ckOk Config.std m = c then m
  else if c then m.write 12 (sum8 (m.read 9) (m.read 10) (m.read 11))
  else m.write 12 (sum8 (m.read 9) (m.read 10) (m.read 11) + 1#8)

/-- The state whose next edge has the decode word `w`: the word's inputs come first, `st` and `cnt` are the word's,
and `ck_ok` is the word's (R66; log 2). -/
def State.presentWord (w : Word) (s : State) : State :=
  { s with
    st := w.st, cnt := w.cnt, buf := Memory.withCkOk w.ckOk s.buf,
    inputs := { rst := w.rst, inValid := w.inValid, inByte := w.byte } :: s.inputs }

/-- A block before the first reset edge: the four registers hold any value (R172, I2; log 10). -/
def State.powerUpAt (cfg : Config) : State cfg.cntW :=
  { State.resetAt cfg.cntW with
    st := Config.powerUpSt, cnt := Config.powerUpCnt cfg.cntW,
    buf := Memory.fill Config.powerUpByte cfg.frameLen, fv := Config.powerUpFv }

/-- The machine before the first reset edge, at the default parameters. -/
def State.powerUp : State := State.powerUpAt Config.std

end Sys2Proof.Machine
end

