-- ==== Sys2Proof/Machine/Collect.lean ====
section
/-! DEFINITION. The collecting operations: ID_ACC, ID_LAST, DATA_ACC, DATA_LAST, CK_CAPTURE (R96 to R100). No byte
value is checked: `HDR_MARK` and `END_MARK` are plain data here (R105, R108). -/

namespace Sys2Proof.Machine

/-- ID_ACC (R96). -/
def doIdAcc (cfg : Config) (b : Byte) {cntW : Nat} (s : State cntW) : Result cntW :=
  collect cfg (idCell cfg s.cnt) b s.st (s.cnt + 1#cntW) s

/-- ID_ACC (R96). -/
def execIdAcc (b : Byte) (s : State) : Result := doIdAcc Config.std b s

/-- ID_LAST (R97). -/
def doIdLast (cfg : Config) (b : Byte) {cntW : Nat} (s : State cntW) : Result cntW :=
  collect cfg (idCell cfg s.cnt) b St.collectData 0#cntW s

/-- ID_LAST (R97). -/
def execIdLast (b : Byte) (s : State) : Result := doIdLast Config.std b s

/-- DATA_ACC (R98). -/
def doDataAcc (cfg : Config) (b : Byte) {cntW : Nat} (s : State cntW) : Result cntW :=
  collect cfg (dataCell cfg s.cnt) b s.st (s.cnt + 1#cntW) s

/-- DATA_ACC (R98). -/
def execDataAcc (b : Byte) (s : State) : Result := doDataAcc Config.std b s

/-- DATA_LAST (R99). -/
def doDataLast (cfg : Config) (b : Byte) {cntW : Nat} (s : State cntW) : Result cntW :=
  collect cfg (dataCell cfg s.cnt) b St.collectCk 0#cntW s

/-- DATA_LAST (R99). -/
def execDataLast (b : Byte) (s : State) : Result := doDataLast Config.std b s

/-- CK_CAPTURE (R100). The checksum is compared at the next consuming edge, not here. -/
def doCkCapture (cfg : Config) (b : Byte) {cntW : Nat} (s : State cntW) : Result cntW :=
  collect cfg (checksumCell cfg) b St.collectEnd 0#cntW s

/-- CK_CAPTURE (R100). -/
def execCkCapture (b : Byte) (s : State) : Result := doCkCapture Config.std b s

end Sys2Proof.Machine
end

