-- ==== Sys2Proof/Machine/Edge.lean ====
section
/-! DEFINITION. The operations of an edge that consumes no byte: RESET and IDLE (R92, R93). In this file and the
other families `do…` is an operation for every value of the parameters, and `exec…` is it at the defaults. -/

namespace Sys2Proof.Machine

/-- RESET (R92): every register takes its reset value. A frame in progress is discarded with cause RESET, and an
open window closes (R136, R171). -/
def doReset {cntW : Nat} (s : State cntW) : Result cntW :=
  .next ((if s.st = St.waitHdr then s else s.discard [.reset] (.before s.regs)).closeWindow.setSeq
    St.waitHdr 0#cntW |>.setBuf Memory.clear)

/-- RESET (R92). -/
def execReset (s : State) : Result := doReset s

/-- IDLE (R93): `fv <- 0`. `st`, `cnt` and `buf` stay, and so does an open window (R136). -/
def doIdle {cntW : Nat} (s : State cntW) : Result cntW := .next s.clearFv

/-- IDLE (R93). -/
def execIdle (s : State) : Result := doIdle s

end Sys2Proof.Machine
end

