-- ==== Sys2Proof/Machine/Header.lean ====
section
/-! DEFINITION. The operations of `WAIT_HDR`: HDR_MATCH and HDR_SKIP (R94, R95). -/

namespace Sys2Proof.Machine

/-- HDR_MATCH (R94). -/
def doHdrMatch (cfg : Config) (b : Byte) {cntW : Nat} (s : State cntW) : Result cntW :=
  collect cfg (headerCell cfg) b St.collectId 0#cntW s

/-- HDR_MATCH (R94). -/
def execHdrMatch (b : Byte) (s : State) : Result := doHdrMatch Config.std b s

/-- HDR_SKIP (R95): the byte is dropped; the edge consumes, so an open window closes (R136). -/
def doHdrSkip (_b : Byte) {cntW : Nat} (s : State cntW) : Result cntW := .next s.closeWindow

/-- HDR_SKIP (R95). -/
def execHdrSkip (b : Byte) (s : State) : Result := doHdrSkip b s

end Sys2Proof.Machine
end

