-- ==== Sys2Proof/Machine/Recover.lean ====
section
/-! DEFINITION. The four rows of RECOVER (R104): recovery from a state no run from reset reaches. -/

namespace Sys2Proof.Machine

/-- RECOVER_ID (R104): `st = COLLECT_ID`, `cnt` = 7 (`ID_LEN` or above). -/
def doRecoverId (b : Byte) {cntW : Nat} (s : State cntW) : Result cntW := recover b s

/-- RECOVER_ID (R104). -/
def execRecoverId (b : Byte) (s : State) : Result := doRecoverId b s

/-- RECOVER_DATA (R104): `st = COLLECT_DATA`, `cnt` 4 to 7 (`DATA_LEN` or above). -/
def doRecoverData (b : Byte) {cntW : Nat} (s : State cntW) : Result cntW := recover b s

/-- RECOVER_DATA (R104). -/
def execRecoverData (b : Byte) (s : State) : Result := doRecoverData b s

/-- RECOVER_ST5 (R104): `st` = 0b101. -/
def doRecoverSt5 (b : Byte) {cntW : Nat} (s : State cntW) : Result cntW := recover b s

/-- RECOVER_ST5 (R104). -/
def execRecoverSt5 (b : Byte) (s : State) : Result := doRecoverSt5 b s

/-- RECOVER_ST67 (R104): `st` = 0b110 or 0b111. -/
def doRecoverSt67 (b : Byte) {cntW : Nat} (s : State cntW) : Result cntW := recover b s

/-- RECOVER_ST67 (R104). -/
def execRecoverSt67 (b : Byte) (s : State) : Result := doRecoverSt67 b s

end Sys2Proof.Machine
end

