-- ==== Sys2Proof/Machine/Terminator.lean ====
section
/-! DEFINITION. The operations of `COLLECT_END`: END_ACCEPT, END_REJECT_CK, END_REJECT_TERM (R101 to R103). -/

namespace Sys2Proof.Machine

/-- END_ACCEPT (R101): the magic byte is not examined. -/
def doEndAccept (cfg : Config) (b : Byte) {cntW : Nat} (s : State cntW) : Result cntW :=
  thenDo (collect cfg (endCell cfg) b St.waitHdr 0#cntW s) (State.emit cfg)

/-- END_ACCEPT (R101). -/
def execEndAccept (b : Byte) (s : State) : Result := doEndAccept Config.std b s

/-- END_REJECT_CK (R102): a correct terminator and a wrong checksum. -/
def doEndRejectCk (cfg : Config) (b : Byte) {cntW : Nat} (s : State cntW) : Result cntW := reject cfg [.ck] b s

/-- END_REJECT_CK (R102). -/
def execEndRejectCk (b : Byte) (s : State) : Result := doEndRejectCk Config.std b s

/-- END_REJECT_TERM (R103): a wrong terminator, with the checksum right or wrong; one discard names both (R153). -/
def doEndRejectTerm (cfg : Config) (b : Byte) {cntW : Nat} (s : State cntW) : Result cntW :=
  reject cfg (if ckOk cfg s.buf then [.term] else [.ck, .term]) b s

/-- END_REJECT_TERM (R103). -/
def execEndRejectTerm (b : Byte) (s : State) : Result := doEndRejectTerm Config.std b s

end Sys2Proof.Machine
end

