-- ==== Sys2Proof/Machine/Dispatch.lean ====
section
/-! DEFINITION. `perform(op, s, in_byte)` of R90: each operation's meaning, one direct call an arm. -/

namespace Sys2Proof.Machine

def exec (i : Instr) (s : State) : Host.Outcome State Fault Refusal :=
  match i with
  | .reset => Sys2Proof.Machine.execReset s
  | .idle => Sys2Proof.Machine.execIdle s
  | .hdrMatch b => Sys2Proof.Machine.execHdrMatch b s
  | .hdrSkip b => Sys2Proof.Machine.execHdrSkip b s
  | .recoverId b => Sys2Proof.Machine.execRecoverId b s
  | .idLast b => Sys2Proof.Machine.execIdLast b s
  | .idAcc b => Sys2Proof.Machine.execIdAcc b s
  | .recoverData b => Sys2Proof.Machine.execRecoverData b s
  | .dataLast b => Sys2Proof.Machine.execDataLast b s
  | .dataAcc b => Sys2Proof.Machine.execDataAcc b s
  | .ckCapture b => Sys2Proof.Machine.execCkCapture b s
  | .endAccept b => Sys2Proof.Machine.execEndAccept b s
  | .endRejectCk b => Sys2Proof.Machine.execEndRejectCk b s
  | .endRejectTerm b => Sys2Proof.Machine.execEndRejectTerm b s
  | .recoverSt5 b => Sys2Proof.Machine.execRecoverSt5 b s
  | .recoverSt67 b => Sys2Proof.Machine.execRecoverSt67 b s

end Sys2Proof.Machine
end

