-- ==== Sys2Proof/Machine/Cycle.lean ====
section
/-! DEFINITION. One rising edge (R90), the byte-level step (R9, R91), and the byte-stream notation (R71). -/

namespace Sys2Proof.Machine

/-- `perform(op, s, in_byte)` of R90 in a block with the parameters `cfg`. At the defaults it is `exec`. -/
def perform {cntW : Nat} (cfg : Config) (i : Instr) (s : State cntW) : Result cntW :=
  match i with
  | .reset => doReset s
  | .idle => doIdle s
  | .hdrMatch b => doHdrMatch cfg b s
  | .hdrSkip b => doHdrSkip b s
  | .recoverId b => doRecoverId b s
  | .idLast b => doIdLast cfg b s
  | .idAcc b => doIdAcc cfg b s
  | .recoverData b => doRecoverData b s
  | .dataLast b => doDataLast cfg b s
  | .dataAcc b => doDataAcc cfg b s
  | .ckCapture b => doCkCapture cfg b s
  | .endAccept b => doEndAccept cfg b s
  | .endRejectCk b => doEndRejectCk cfg b s
  | .endRejectTerm b => doEndRejectTerm cfg b s
  | .recoverSt5 b => doRecoverSt5 b s
  | .recoverSt67 b => doRecoverSt67 b s

/-- One rising edge with input `x`, in a block whose operations are performed by `run`: the operation the edge selects
is performed (R68, R90). -/
def edgeBy {cntW : Nat} (cfg : Config) (run : Instr → State cntW → Result cntW) (x : EdgeInput) (s : State cntW) :
    Result cntW :=
  match selectInstr cfg x s with
  | .ok i => run i s
  | .error _ => .refused .noRow

/-- One rising edge of a block with the parameters `cfg` (R5, R90). -/
def cycleAt (cfg : Config) (x : EdgeInput) (s : State cfg.cntW) : Result cfg.cntW := edgeBy cfg (perform cfg) x s

/-- One rising edge of the block with the default parameters. -/
def cycle (x : EdgeInput) (s : State) : Result := edgeBy Config.std exec x s

/-- The next edge: its input is taken from the queue. With no input placed the clock stands still and the state
freezes (R160, I14; log 1). -/
def nextEdge {cntW : Nat} (edge : EdgeInput → State cntW → Result cntW) (s : State cntW) : Result cntW :=
  match s.inputs with
  | [] => .next s
  | x :: rest => edge x (s.advance rest)

/-- `emitted : Option Frame` of R90: the frame an edge from `s` to `s'` added to the observation. -/
def newFrame {cntW : Nat} (s s' : State cntW) : Option Frame :=
  if s'.emitted.length = s.emitted.length then none else s'.emitted.getLast?.map Emission.frame

/-- A consuming edge of the byte `b` (R60). -/
def byteEdge (b : Byte) : EdgeInput := { rst := false, inValid := true, inByte := b }

/-- An idle edge (R60), `.` in the notation of R71. `in_byte` is ignored there. -/
def idleEdge : EdgeInput := { rst := false, inValid := false, inByte := 0x00#8 }

/-- A reset edge (R60), `!` in the notation of R71. The other inputs are ignored there. -/
def resetEdge : EdgeInput := { rst := true, inValid := false, inByte := 0x00#8 }

/-- A stream of bytes, one per consuming edge (R71). -/
def byteStream (bs : List Byte) : List EdgeInput := bs.map byteEdge

/-- `SKIPN n`: n bytes of the filler 0xFF (R71). -/
def skipN (n : Nat) : List EdgeInput := byteStream (List.replicate n 0xFF#8)

/-- `SYNC`: `SKIPN 13` (R71). -/
def syncStream : List EdgeInput := skipN 13

/-- `parseByte(s, b) -> (s', accepted)` (R91): a consuming edge; `accepted` says whether it emitted a frame. -/
def parseByte (s : State) (b : Byte) : Option (State × Bool) :=
  match cycle (byteEdge b) (s.advance s.inputs) with
  | .next s' => some (s', (newFrame s s').isSome)
  | .fault _ => none
  | .refused _ => none

end Sys2Proof.Machine
end

