-- ==== Sys2Proof/Machine/Step.lean ====
section
/-! DEFINITION. The step: one rising edge of `clk` (R90). -/

namespace Sys2Proof.Machine

/-- The step of a block built with the parameters `cfg` (R5, R90). -/
def stepAt (cfg : Config) (s : State cfg.cntW) : Host.Outcome (State cfg.cntW) Fault Refusal :=
  nextEdge (cycleAt cfg) s

/-- The step of the block with the default parameters (R5). It performs `exec`. -/
def step (s : State) : Host.Outcome State Fault Refusal := nextEdge cycle s

/-- `s` with the decode word of spec/opcode_table.json's bits presented at its next edge: the inputs of the word
come first in the queue, and `st`, `cnt` and `ck_ok`, which the word takes from the state, are the word's (R66;
log 2). Nothing else changes: of the buffer at most cell 12, by which `ck_ok` is set. -/
def State.withFetchWord (s : State) (nbits w : Nat) : State :=
  s.presentWord (BitVec.ofNat 17 (w % 2 ^ nbits))

end Sys2Proof.Machine
end

