-- ==== Sys2Proof/Safety.lean ====
section
/-! DEFINITION. The terms the claims are stated in: runs over a list of edge inputs, the position in a frame, the
recovery table, the invariants of the state, and what an operation stores. -/

namespace Sys2Proof.Machine

/-! Runs. -/

/-- The machine after one step for each input of `xs`, from `s` with exactly these inputs to come (D24). -/
def State.feed (xs : List EdgeInput) (s : State) : Result :=
  Host.Core.run Sys2Proof.core xs.length (s.present xs)

/-- A block built with the parameters `cfg`, as a machine (R5). -/
def coreAt (cfg : Config) : Host.Core :=
  { State := State cfg.cntW, Fault := Fault, Refusal := Refusal, step := stepAt cfg, reset := State.resetAt cfg.cntW }

/-- The same for a block built with the parameters `cfg`. -/
def State.feedAt (cfg : Config) (xs : List EdgeInput) (s : State cfg.cntW) : Result cfg.cntW :=
  Host.Core.run (coreAt cfg) xs.length (s.present xs)

/-- The input consumes a byte (R9: a consuming edge). -/
def EdgeInput.consumes (x : EdgeInput) : Bool := !x.rst && x.inValid

/-- The input is an idle edge (R60). -/
def EdgeInput.idles (x : EdgeInput) : Bool := !x.rst && !x.inValid

/-- The bytes the inputs consume, in order. -/
def consumedBytes (xs : List EdgeInput) : List Byte :=
  (xs.filter fun x => x.consumes).map fun x => x.inByte

/-! Sequencing. -/

/-- Which byte of the frame the next consumed byte will be, by (`st`, `cnt`) (R29, R40). -/
def position (cfg : Config) (st : StCode) {cntW : Nat} (cnt : BitVec cntW) : Nat :=
  if st = St.collectId then 1 + cnt.toNat
  else if st = St.collectData then cfg.dataPos + cnt.toNat
  else if st = St.collectCk then cfg.ckPos
  else if st = St.collectEnd then cfg.endPos
  else 0

/-- The illegal values of (`st`, `cnt`) that RECOVER handles (R104). -/
def illegal (cfg : Config) (st : StCode) {cntW : Nat} (cnt : BitVec cntW) : Bool :=
  (st == St.collectId && decide (cfg.idLen ≤ cnt.toNat)) ||
  (st == St.collectData && decide (cfg.dataLen ≤ cnt.toNat)) ||
  decide (5 ≤ st.toNat)

/-- The table of R173: how many consuming edges lead from (`st`, `cnt`) to `WAIT_HDR`. At the defaults
`COLLECT_ID` needs 13 - `cnt` of them and `COLLECT_DATA` 6 - `cnt`. -/
def bytesNeeded (cfg : Config) (st : StCode) {cntW : Nat} (cnt : BitVec cntW) : Nat :=
  if st = St.waitHdr then 0
  else if illegal cfg st cnt then 1
  else if st = St.collectId then cfg.frameLen - 1 - cnt.toNat
  else if st = St.collectData then cfg.dataLen + 2 - cnt.toNat
  else if st = St.collectCk then 2
  else 1

/-! Invariants: each holds at reset and is kept by every step. -/

/-- The columns `st` and `cnt` of R28's table, and `buf[0] = HDR_MARK` while a frame is in progress. -/
def SequencingInv (cfg : Config) {cntW : Nat} (s : State cntW) : Prop :=
  (s.st = St.waitHdr ∧ s.cnt = 0#cntW) ∨
  (s.st = St.collectId ∧ s.cnt.toNat < cfg.idLen ∧ s.buf.read 0 = cfg.hdrMark) ∨
  (s.st = St.collectData ∧ s.cnt.toNat < cfg.dataLen ∧ s.buf.read 0 = cfg.hdrMark) ∨
  (s.st = St.collectCk ∧ s.cnt = 0#cntW ∧ s.buf.read 0 = cfg.hdrMark) ∨
  (s.st = St.collectEnd ∧ s.cnt = 0#cntW ∧ s.buf.read 0 = cfg.hdrMark)

/-- Every emitted frame is well formed and headed by `HDR_MARK` (R133). -/
def EmittedAccepted (cfg : Config) {cntW : Nat} (s : State cntW) : Prop :=
  ∀ e ∈ s.emitted, e.frame.accepted cfg = true

/-- While a window is open the buffer holds the frame emitted last; `fv = 1` only in the first cycle of a window,
that of the last emission's edge (R24, R46, R136). -/
def WindowInv (cfg : Config) {cntW : Nat} (s : State cntW) : Prop :=
  (s.window = true → ∃ e, s.emitted.getLast? = some e ∧ e.frame = Frame.ofBuf cfg s.buf) ∧
  (s.fv = true → s.window = true ∧ ∃ e, s.emitted.getLast? = some e ∧ e.edge = s.edge)

/-- Emissions lie at least `FRAME_LEN` edges apart, and the frame in progress began after the last of them
(R49, R184). -/
def SpacingInv (cfg : Config) {cntW : Nat} (s : State cntW) : Prop :=
  (s.emitted.map fun e => e.edge).Pairwise (fun a b => a + cfg.frameLen ≤ b) ∧
  ∀ e ∈ s.emitted, e.edge + position cfg s.st s.cnt ≤ s.edge

/-- Every recorded discard has reasons, none twice, and an edge that has been taken (R150, R153). -/
def DiscardsInv {cntW : Nat} (s : State cntW) : Prop :=
  ∀ d ∈ s.discards, d.reasons ≠ [] ∧ d.reasons.Nodup ∧ d.edge ≤ s.edge

/-! What an operation selects and stores. -/

/-- The row of R69 with this priority, match and mask fits the word, and the table's decode of the word is the
instruction `i` of that row. -/
def Selected (priority : Nat) (matchBits mask : Word) (w : Word) (i : Instr) : Prop :=
  (∃ r ∈ opTable Config.std,
    r.priority = priority ∧ r.matchBits = matchBits ∧ r.mask = mask ∧ r.op = i.op ∧ r.fits w = true) ∧
  decode Config.std w = .ok i

/-- `t` reads `b` at cell `a` and as `s` everywhere else. -/
def StoresOnly (a : CellAddr Config.std) (b : Byte) (s t : State) : Prop :=
  ∀ p : Nat, t.buf.read p = if p = a.toNat then b else s.buf.read p

/-- `t` reads as `s` everywhere. -/
def StoresNothing (s t : State) : Prop := ∀ p : Nat, t.buf.read p = s.buf.read p

/-! Safe runs. -/

/-- A safe outcome: the machine goes on. By R151 every outcome is safe. -/
def goesOn (r : Result) : Prop := ∃ t, r = .next t

end Sys2Proof.Machine
end

