-- ==== Sys2Proof/Certificates/Slice0/Obligations.lean ====
section
/-! DEFINITION. The statements for the provers. Each docstring names the rule of spec/ a statement formalises. -/

open Sys2Proof Sys2Proof.Machine

/-! Decoding. -/

/-- A few decode words of 95_test_vectors.md §2.3 (V1, V5, V6, V9, V14, V18, V21, V23, V25, V27, V30), which
R66 and R69 give, decode to the operation the vector names. -/
def Obligations.VectorWordsDecode : Prop :=
  decodeTableWord 24 0x1D253 = some .reset ∧
  decodeTableWord 24 0x07000 = some .idle ∧
  decodeTableWord 24 0x0C053 = some (.hdrMatch 0x53) ∧
  decodeTableWord 24 0x0C052 = some (.hdrSkip 0x52) ∧
  decodeTableWord 24 0x0CEEE = some (.idLast 0xEE) ∧
  decodeTableWord 24 0x0D305 = some (.dataLast 0x05) ∧
  decodeTableWord 24 0x09810 = some (.ckCapture 0x10) ∧
  decodeTableWord 24 0x0E000 = some (.endAccept 0x00) ∧
  decodeTableWord 24 0x0A000 = some (.endRejectCk 0x00) ∧
  decodeTableWord 24 0x0A053 = some (.endRejectTerm 0x53) ∧
  decodeTableWord 24 0x0FFFF = some (.recoverSt67 0xFF)

/-- R66: the word has the six fields at their places, and is made of nothing else. -/
def Obligations.DecodeWordHoldsItsFields : Prop :=
  (∀ (rst inValid ck : Bool) (st : StCode) (cnt : Cnt) (b : Byte),
    (Word.ofFields rst inValid ck st cnt b).rst = rst ∧
    (Word.ofFields rst inValid ck st cnt b).inValid = inValid ∧
    (Word.ofFields rst inValid ck st cnt b).ckOk = ck ∧
    (Word.ofFields rst inValid ck st cnt b).st = st ∧
    (Word.ofFields rst inValid ck st cnt b).cnt = cnt ∧
    (Word.ofFields rst inValid ck st cnt b).byte = b) ∧
  (∀ w : Word, Word.ofFields w.rst w.inValid w.ckOk w.st w.cnt w.byte = w) ∧
  (∀ (x : EdgeInput) (s : State),
    wordOf Config.std x s = Word.ofFields x.rst x.inValid
      (decide (sum8 (s.buf.read 9) (s.buf.read 10) (s.buf.read 11) = s.buf.read 12)) s.st s.cnt x.inByte)

/-- R68: every word fits a row; no two rows share a priority; the decode takes the fitting row of the lowest
priority. For every value of the byte parameters. -/
def Obligations.LowestFittingPriorityDecodes : Prop :=
  ∀ cfg : Config, (opTable cfg).Pairwise (fun r r' => r.priority ≠ r'.priority) ∧
    ∀ w : Word, ∃ r ∈ opTable cfg, r.fits w = true ∧ decode cfg w = .ok (r.op.instr w.byte) ∧
      ∀ r' ∈ opTable cfg, r'.fits w = true → r.priority ≤ r'.priority

/-- R69: the table has the rows as the spec lists them, and its priority decode is the direct reading of the column
"selects", for every word (the comparison of 95_test_vectors.md §2.1) and every parameters the table is valid for. -/
def Obligations.TableDecodeIsDirectReading : Prop :=
  (opTable Config.std).map (fun r => (r.priority, r.mnemonic, r.matchBits, r.mask)) =
    [(1, "RESET", 0x10000, 0x10000), (2, "IDLE", 0x00000, 0x18000),
     (3, "HDR_MATCH", 0x08053, 0x1B8FF), (4, "HDR_SKIP", 0x08000, 0x1B800),
     (5, "RECOVER_ID", 0x08F00, 0x1BF00), (6, "ID_LAST", 0x08E00, 0x1BF00), (7, "ID_ACC", 0x08800, 0x1B800),
     (8, "RECOVER_DATA", 0x09400, 0x1BC00), (9, "DATA_LAST", 0x09300, 0x1BF00), (10, "DATA_ACC", 0x09000, 0x1B800),
     (11, "CK_CAPTURE", 0x09800, 0x1B800), (12, "END_ACCEPT", 0x0E000, 0x1F8FF),
     (13, "END_REJECT_CK", 0x0A000, 0x1F8FF), (14, "END_REJECT_TERM", 0x0A000, 0x1B800),
     (15, "RECOVER_ST5", 0x0A800, 0x1B800), (16, "RECOVER_ST67", 0x0B000, 0x1B000)] ∧
  ∀ (cfg : Config) (w : Word), cfg.tableValid = true →
    decode cfg w = .ok (readDirect cfg w.rst w.inValid w.ckOk w.st w.cnt w.byte)

/-- Decode and encode agree on every well-formed instruction, with every operand the encoding admits (R66 to R69). -/
def Obligations.DecodeOfEncodeIsTheInstruction : Prop :=
  ∀ (cfg : Config) (i : Instr), i.wf cfg = true → decode cfg (encode cfg i) = .ok i

/-- What the decoder answers is well formed, its row fits the word, and its operand is the word's byte (R66, R69). -/
def Obligations.DecodedInstructionIsWellFormed : Prop :=
  ∀ (cfg : Config) (w : Word) (i : Instr), decode cfg w = .ok i →
    i.wf cfg = true ∧ (i.op.row cfg).fits w = true ∧ ∀ b, i.byte? = some b → b = w.byte

/-! The step. -/

/-- A step runs the decoded instruction: with an input placed, it takes the input from the queue, counts the edge and
performs the instruction the edge's decode word decodes to; with no input placed the state freezes (R90, R160; the
queue and the freeze are the model's, logs 1 and 5). -/
def Obligations.StepRunsTheDecodedInstruction : Prop :=
  (∀ (s : State) (x : EdgeInput) (rest : List EdgeInput) (i : Instr),
    s.inputs = x :: rest → decode Config.std (wordOf Config.std x s) = .ok i →
    step s = exec i { s with inputs := rest, edge := s.edge + 1 }) ∧
  (∀ s : State, s.inputs = [] → step s = .next s)

/-- A table word placed by withFetchWord is the decode word of the next edge and is run by the next step; of the
rest of the state nothing changes but `st`, `cnt` and cell 12, which the word fixes (R66; log 2). -/
def Obligations.FetchedWordIsTheOneRun : Prop :=
  ∀ (s : State) (nbits w : Nat), w < 2 ^ 17 → w < 2 ^ nbits →
    (∃ x, (s.withFetchWord nbits w).inputs = x :: s.inputs ∧
      wordOf Config.std x (s.withFetchWord nbits w) = BitVec.ofNat 17 w) ∧
    (∃ i, decodeTableWord nbits w = some i ∧
      step (s.withFetchWord nbits w) =
        exec i { s.withFetchWord nbits w with inputs := s.inputs, edge := s.edge + 1 }) ∧
    (∀ p, p ≠ 12 → (s.withFetchWord nbits w).buf.read p = s.buf.read p) ∧
    (s.withFetchWord nbits w) =
      { s with
        st := (s.withFetchWord nbits w).st, cnt := (s.withFetchWord nbits w).cnt,
        buf := (s.withFetchWord nbits w).buf, inputs := (s.withFetchWord nbits w).inputs }

/-- R151: from every state, reachable or not, with any input and any parameters, the step answers a next state; an
input placed is consumed at its edge; and a run of any length goes on. What a block of other parameters than the
defaults is, is the model's reading (log 9). -/
def Obligations.NoInputFaultsHangsOrStops : Prop :=
  (∀ (cfg : Config) (s : State cfg.cntW) (x : EdgeInput) (rest : List EdgeInput), s.inputs = x :: rest →
    ∃ t, stepAt cfg s = .next t ∧ t.inputs = rest ∧ t.edge = s.edge + 1) ∧
  (∀ (cfg : Config) (s : State cfg.cntW), ∃ t, stepAt cfg s = .next t) ∧
  (∀ (n : Nat) (s : State), ∃ t, Host.Core.run Sys2Proof.core n s = .next t)

/-! The operations. Each statement gives the row that selects the operation and the next state, whole: what is not
named in the update is unchanged. -/

/-- R92. -/
def Obligations.ResetEdgeResult : Prop :=
  ∀ (x : EdgeInput) (s : State), x.rst = true →
    Selected 1 0x10000 0x10000 (wordOf Config.std x s) .reset ∧
    ∃ t, exec .reset s = .next t ∧ (∀ p, t.buf.read p = 0x00#8) ∧
      t = { s with
        st := St.waitHdr, cnt := 0#3, buf := t.buf, fv := false, window := false,
        discards := if s.st = St.waitHdr then s.discards
          else s.discards ++ [{ edge := s.edge, reasons := [.reset], record := .before s.regs }] }

/-- R93. -/
def Obligations.IdleEdgeResult : Prop :=
  ∀ (x : EdgeInput) (s : State), x.rst = false → x.inValid = false →
    Selected 2 0x00000 0x18000 (wordOf Config.std x s) .idle ∧
    ∃ t, exec .idle s = .next t ∧ StoresNothing s t ∧ t = { s with fv := false }

/-- R94. -/
def Obligations.HdrMatchResult : Prop :=
  ∀ s : State, s.st = St.waitHdr →
    Selected 3 0x08053 0x1B8FF (wordOf Config.std (byteEdge 0x53) s) (.hdrMatch 0x53) ∧
    ∃ t, exec (.hdrMatch 0x53) s = .next t ∧ StoresOnly (headerCell Config.std) 0x53 s t ∧
      (headerCell Config.std).toNat = 0 ∧
      t = { s with st := St.collectId, cnt := 0#3, buf := t.buf, fv := false, window := false }

/-- R95. -/
def Obligations.HdrSkipResult : Prop :=
  ∀ (b : Byte) (s : State), s.st = St.waitHdr → b ≠ 0x53 →
    Selected 4 0x08000 0x1B800 (wordOf Config.std (byteEdge b) s) (.hdrSkip b) ∧
    ∃ t, exec (.hdrSkip b) s = .next t ∧ StoresNothing s t ∧ t = { s with fv := false, window := false }

/-- R96: `HDR_MARK` and `END_MARK` are stored like any other byte. -/
def Obligations.IdAccResult : Prop :=
  ∀ (b : Byte) (s : State), s.st = St.collectId → s.cnt.toNat ≤ 5 →
    Selected 7 0x08800 0x1B800 (wordOf Config.std (byteEdge b) s) (.idAcc b) ∧
    ∃ t, exec (.idAcc b) s = .next t ∧
      StoresOnly (idCell Config.std s.cnt) b s t ∧ (idCell Config.std s.cnt).toNat = 1 + s.cnt.toNat ∧
      t = { s with cnt := t.cnt, buf := t.buf, fv := false, window := false } ∧ t.cnt.toNat = s.cnt.toNat + 1

/-- R97. -/
def Obligations.IdLastResult : Prop :=
  ∀ (b : Byte) (s : State), s.st = St.collectId → s.cnt.toNat = 6 →
    Selected 6 0x08E00 0x1BF00 (wordOf Config.std (byteEdge b) s) (.idLast b) ∧
    ∃ t, exec (.idLast b) s = .next t ∧ StoresOnly (idCell Config.std s.cnt) b s t ∧
      (idCell Config.std s.cnt).toNat = 7 ∧
      t = { s with st := St.collectData, cnt := 0#3, buf := t.buf, fv := false, window := false }

/-- R98: no value is range-checked. -/
def Obligations.DataAccResult : Prop :=
  ∀ (b : Byte) (s : State), s.st = St.collectData → s.cnt.toNat ≤ 2 →
    Selected 10 0x09000 0x1B800 (wordOf Config.std (byteEdge b) s) (.dataAcc b) ∧
    ∃ t, exec (.dataAcc b) s = .next t ∧
      StoresOnly (dataCell Config.std s.cnt) b s t ∧ (dataCell Config.std s.cnt).toNat = 8 + s.cnt.toNat ∧
      t = { s with cnt := t.cnt, buf := t.buf, fv := false, window := false } ∧ t.cnt.toNat = s.cnt.toNat + 1

/-- R99. -/
def Obligations.DataLastResult : Prop :=
  ∀ (b : Byte) (s : State), s.st = St.collectData → s.cnt.toNat = 3 →
    Selected 9 0x09300 0x1BF00 (wordOf Config.std (byteEdge b) s) (.dataLast b) ∧
    ∃ t, exec (.dataLast b) s = .next t ∧ StoresOnly (dataCell Config.std s.cnt) b s t ∧
      (dataCell Config.std s.cnt).toNat = 11 ∧
      t = { s with st := St.collectCk, cnt := 0#3, buf := t.buf, fv := false, window := false }

/-- R100: `cnt` is ignored and any value is captured. -/
def Obligations.CkCaptureResult : Prop :=
  ∀ (b : Byte) (s : State), s.st = St.collectCk →
    Selected 11 0x09800 0x1B800 (wordOf Config.std (byteEdge b) s) (.ckCapture b) ∧
    ∃ t, exec (.ckCapture b) s = .next t ∧ StoresOnly (checksumCell Config.std) b s t ∧
      (checksumCell Config.std).toNat = 12 ∧
      t = { s with st := St.collectEnd, cnt := 0#3, buf := t.buf, fv := false, window := false }

/-- R101: the frame emitted is the buffer as the edge leaves it, whatever its magic byte; the window opens. In every
state the sequencing invariant allows, the frame has `HDR_MARK` first. -/
def Obligations.EndAcceptResult : Prop :=
  ∀ s : State, s.st = St.collectEnd → ckOk Config.std s.buf = true →
    Selected 12 0x0E000 0x1F8FF (wordOf Config.std (byteEdge 0x00) s) (.endAccept 0x00) ∧
    ∃ t, exec (.endAccept 0x00) s = .next t ∧ StoresOnly (endCell Config.std) 0x00 s t ∧
      (endCell Config.std).toNat = 13 ∧
      t = { s with
        st := St.waitHdr, cnt := 0#3, buf := t.buf, fv := true, window := true,
        emitted := s.emitted ++ [{ edge := s.edge, frame := Frame.ofBuf Config.std t.buf }] } ∧
      t.frameOut Config.std = (Frame.ofBuf Config.std t.buf).pack Config.std ∧
      t.frameIgnorable Config.std = decide (s.buf.read 8 = 0xA4#8) ∧
      (Frame.ofBuf Config.std t.buf).endByte = 0x00#8 ∧
      (SequencingInv Config.std s → (Frame.ofBuf Config.std t.buf).header = 0x53#8)

/-- R102, with the recorded value of R150. -/
def Obligations.EndRejectCkResult : Prop :=
  ∀ s : State, s.st = St.collectEnd → ckOk Config.std s.buf = false →
    Selected 13 0x0A000 0x1F8FF (wordOf Config.std (byteEdge 0x00) s) (.endRejectCk 0x00) ∧
    ∃ t, exec (.endRejectCk 0x00) s = .next t ∧ StoresOnly (endCell Config.std) 0x00 s t ∧
      (endCell Config.std).toNat = 13 ∧
      t = { s with
        st := St.waitHdr, cnt := 0#3, buf := t.buf, fv := false, window := false,
        discards := s.discards ++
          [{ edge := s.edge, reasons := [.ck],
             record := .endOfFrame ((List.range 13).map s.buf.read) 0x00 }] }

/-- R103, with the reasons of R153 and the recorded value of R150: a terminator 0x53 starts nothing. -/
def Obligations.EndRejectTermResult : Prop :=
  ∀ (b : Byte) (s : State), s.st = St.collectEnd → b ≠ 0x00 →
    Selected 14 0x0A000 0x1B800 (wordOf Config.std (byteEdge b) s) (.endRejectTerm b) ∧
    ∃ t, exec (.endRejectTerm b) s = .next t ∧ StoresOnly (endCell Config.std) b s t ∧
      (endCell Config.std).toNat = 13 ∧
      ∃ d : Discard, d.edge = s.edge ∧ d.record = .endOfFrame ((List.range 13).map s.buf.read) b ∧
        .term ∈ d.reasons ∧ (.ck ∈ d.reasons ↔ ckOk Config.std s.buf = false) ∧
        .reset ∉ d.reasons ∧ .recover ∉ d.reasons ∧ d.reasons.Nodup ∧
        t = { s with
          st := St.waitHdr, cnt := 0#3, buf := t.buf, fv := false, window := false,
          discards := s.discards ++ [d] }

/-- R104: the four rows, and what each does: the byte is dropped, not inspected for `HDR_MARK`. At an idle edge an
illegal state persists. -/
def Obligations.RecoverResult : Prop :=
  (∀ (b : Byte) (s : State), s.st = St.collectId → s.cnt.toNat = 7 →
    Selected 5 0x08F00 0x1BF00 (wordOf Config.std (byteEdge b) s) (.recoverId b)) ∧
  (∀ (b : Byte) (s : State), s.st = St.collectData → 4 ≤ s.cnt.toNat →
    Selected 8 0x09400 0x1BC00 (wordOf Config.std (byteEdge b) s) (.recoverData b)) ∧
  (∀ (b : Byte) (s : State), s.st = 0b101#3 →
    Selected 15 0x0A800 0x1B800 (wordOf Config.std (byteEdge b) s) (.recoverSt5 b)) ∧
  (∀ (b : Byte) (s : State), s.st = 0b110#3 ∨ s.st = 0b111#3 →
    Selected 16 0x0B000 0x1B000 (wordOf Config.std (byteEdge b) s) (.recoverSt67 b)) ∧
  (∀ (b : Byte) (s : State) (i : Instr),
    i ∈ [Instr.recoverId b, Instr.recoverData b, Instr.recoverSt5 b, Instr.recoverSt67 b] →
    ∃ t, exec i s = .next t ∧ StoresNothing s t ∧
      t = { s with
        st := St.waitHdr, cnt := 0#3, fv := false, window := false,
        discards := s.discards ++
          [{ edge := s.edge, reasons := [.recover], record := .beforeAndByte s.regs b }] }) ∧
  (∀ s : State, illegal Config.std s.st s.cnt = true →
    ∃ t, cycle idleEdge s = .next t ∧ t.st = s.st ∧ t.cnt = s.cnt ∧ t.buf = s.buf)

/-- The model's one fault: `exec` of DATA_ACC or DATA_LAST in a state whose `cnt` points past cell 13 stops by name,
since cells 14 and 15 do not exist (R40). It is the model's choice (log 7); no step reaches it
(NoInputFaultsHangsOrStops). -/
def Obligations.StoreToMissingCellStops : Prop :=
  ∀ (b : Byte) (s : State), 6 ≤ s.cnt.toNat →
    exec (.dataAcc b) s = .fault (.noSuchCell (dataCell Config.std s.cnt).toNat) ∧
    exec (.dataLast b) s = .fault (.noSuchCell (dataCell Config.std s.cnt).toNat) ∧
    14 ≤ (dataCell Config.std s.cnt).toNat

/-- One cell at most is written at an edge without reset, and it is the one of the frame position: of R40's rule the
clause on the written address. In a legal collecting state the byte lands there and the position advances by one,
from 13 back to `WAIT_HDR`, whatever the byte (R29, R40, R42, R43). -/
def Obligations.ConsumedByteGoesToItsPosition : Prop :=
  (∀ (x : EdgeInput) (s : State), x.rst = false →
    ∃ t, cycle x s = .next t ∧ ∀ p, p ≠ position Config.std s.st s.cnt → t.buf.read p = s.buf.read p) ∧
  (∀ (b : Byte) (s : State), s.st ≠ St.waitHdr → illegal Config.std s.st s.cnt = false →
    ∃ t, cycle (byteEdge b) s = .next t ∧ t.buf.read (position Config.std s.st s.cnt) = b ∧
      illegal Config.std t.st t.cnt = false ∧ (t.st = St.waitHdr ↔ position Config.std s.st s.cnt = 13) ∧
      position Config.std t.st t.cnt =
        if position Config.std s.st s.cnt = 13 then 0 else position Config.std s.st s.cnt + 1)

/-! The checksum, the frame views, the ports. -/

/-- R130: the sum of the three bytes modulo 256; at most two wraps; the order of the bytes does not matter, so a frame
with command, intensity and colorBalance permuted passes or fails the checksum alike. -/
def Obligations.SumOfThreeBytesModulo256 : Prop :=
  (∀ c i k : Byte, (sum8 c i k).toNat = (c.toNat + i.toNat + k.toNat) % 256 ∧
    c.toNat + i.toNat + k.toNat ≤ 0x2FD ∧
    sum8 c i k = sum8 i c k ∧ sum8 c i k = sum8 c k i) ∧
  sum8 0x80 0x80 0x00 = 0x00 ∧ sum8 0xFF 0xFF 0xFF = 0xFD ∧
  (∀ f g : Frame, f.checksum = g.checksum →
    [f.command, f.intensity, f.colorBalance].Perm [g.command, g.intensity, g.colorBalance] →
    f.validateChecksum Config.std = g.validateChecksum Config.std)

/-- R131: the check is true exactly where the checksum byte is the sum modulo 256, and `ck_ok` is the check on the
parser's own buffer. R132: computing the checksum makes it hold and changes nothing else. -/
def Obligations.ChecksumCheckIsTheModularSum : Prop :=
  (∀ f : Frame, f.validateChecksum Config.std = true ↔
    f.checksum.toNat = (f.command.toNat + f.intensity.toNat + f.colorBalance.toNat) % 256) ∧
  (∀ m : Memory, ckOk Config.std m = (Frame.ofBuf Config.std m).validateChecksum Config.std) ∧
  (∀ f : Frame, (f.computeChecksum Config.std).validateChecksum Config.std = true ∧
    f.computeChecksum Config.std =
      { f with
        checksum := BitVec.ofNat 8 (f.command.toNat + f.intensity.toNat + f.colorBalance.toNat) })

/-- R138: the decode is total; Unknown covers the 252 bytes other than the four named ones. -/
def Obligations.CommandDecodeIsTotal : Prop :=
  decodeCommand 0x01 = .on ∧ decodeCommand 0x10 = .off ∧ decodeCommand 0x02 = .automatic ∧
  decodeCommand 0xE0 = .startup ∧
  (∀ x : Byte, decodeCommand x = .unknown ↔ x ∉ [0x01#8, 0x10#8, 0x02#8, 0xE0#8]) ∧
  ((List.range 256).filter fun n => decodeCommand (BitVec.ofNat 8 n) = .unknown).length = 252

/-- R44, R139: inside a window byte p of `frame_out` is cell p, the field views are its slices, and the identification
is the slice [63:8]. -/
def Obligations.FrameOutShowsTheBuffer : Prop :=
  ∀ s : State, s.window = true →
    (∀ p, p < 14 → (s.frameOut Config.std).extractLsb' (8 * p) 8 = s.buf.read p) ∧
    Frame.ofPort Config.std (s.frameOut Config.std) = Frame.ofBuf Config.std s.buf ∧
    (∀ k, k < 7 → ((s.frameOut Config.std).extractLsb' 8 56).extractLsb' (8 * k) 8 = s.buf.read (1 + k)) ∧
    s.frameIgnorable Config.std = decide ((s.frameOut Config.std).extractLsb' 64 8 = 0xA4#8)

/-- R24: `fv` is 1 after an END_ACCEPT edge and 0 after every other edge, which is also when a frame is emitted. -/
def Obligations.FrameValidIsAPulse : Prop :=
  ∀ (x : EdgeInput) (s : State), ∃ t, cycle x s = .next t ∧ t.frameValid = t.fv ∧
    (t.fv = true ↔ decode Config.std (wordOf Config.std x s) = .ok (.endAccept x.inByte)) ∧
    (t.fv = true ↔ newFrame s t = some (Frame.ofBuf Config.std t.buf)) ∧ (t.fv = false ↔ newFrame s t = none)

/-- R136, the clauses on when a window is open: END_ACCEPT opens it, an idle edge leaves it as it is, every reset
edge and every other consuming edge closes it; over an idle edge both outputs keep their value in a window. -/
def Obligations.WindowOpensAndCloses : Prop :=
  ∀ (x : EdgeInput) (s : State), ∃ t, cycle x s = .next t ∧
    (t.window = true ↔
      decode Config.std (wordOf Config.std x s) = .ok (.endAccept x.inByte) ∨ (x.idles = true ∧ s.window = true)) ∧
    (x.idles = true → s.window = true →
      t.frameOut Config.std = s.frameOut Config.std ∧ t.frameIgnorable Config.std = s.frameIgnorable Config.std)

/-! Invariants over every step. -/

/-- What reset leaves (R32), and that every invariant holds there. The reset values of the fields that are the
model's own are its choices (logs 1, 5, 6). -/
def Obligations.ResetStateMeetsTheInvariants : Prop :=
  State.reset.st = St.waitHdr ∧ State.reset.cnt = 0#3 ∧ (∀ p, State.reset.buf.read p = 0x00#8) ∧
  State.reset.fv = false ∧ State.reset.buf.wf Config.std = true ∧ SequencingInv Config.std State.reset ∧
  EmittedAccepted Config.std State.reset ∧ WindowInv Config.std State.reset ∧ SpacingInv Config.std State.reset ∧
  DiscardsInv State.reset

/-- Every step keeps the frame buffer in its canonical form (log 11), all of its entries at cells below `FRAME_LEN`:
R40 at the defaults, and for other lengths the model's reading (log 9). -/
def Obligations.BufferStaysCanonical : Prop :=
  ∀ (cfg : Config) (s : State cfg.cntW), s.buf.wf cfg = true → ∃ t, stepAt cfg s = .next t ∧ t.buf.wf cfg = true

/-- R28, the columns `st` and `cnt` of its table and `buf[0] = HDR_MARK`: every step keeps them, so no state reached
from reset has an illegal `st` or `cnt`. For every valid value of the parameters (R5): `CNT_W` suffices (R22). R28
gives its ranges for the defaults; those for other lengths, and `Config.valid`, are the model's (log 9). -/
def Obligations.SequencingInvariantIsKept : Prop :=
  ∀ (cfg : Config) (s : State cfg.cntW), cfg.valid = true → SequencingInv cfg s →
    illegal cfg s.st s.cnt = false ∧ ∃ t, stepAt cfg s = .next t ∧ SequencingInv cfg t

/-- R133 at the defaults, where the checksum is the sum modulo 256: every frame the parser emits is well formed and has
`HDR_MARK` first. For other parameters (R5) it is the model's choice, not the spec's, that the whole checksum byte is
the sum modulo 2 to the power `CK_WIDTH`, and that a data field which `DATA_LEN` below 4 leaves no position is a free
value in it (log 9). -/
def Obligations.EmittedFramesAreWellFormed : Prop :=
  ∀ (cfg : Config) (s : State cfg.cntW), SequencingInv cfg s → EmittedAccepted cfg s →
    ∃ t, stepAt cfg s = .next t ∧ EmittedAccepted cfg t ∧
      ∀ e ∈ t.emitted, e.frame.header = cfg.hdrMark ∧ e.frame.endByte = cfg.endMark ∧ e.frame.sized cfg = true ∧
        e.frame.checksum.toNat =
          (e.frame.command.toNat + e.frame.intensity.toNat + e.frame.colorBalance.toNat) % 2 ^ cfg.ckWidth

/-- R46, R136: while a window is open, `frame_out` and `frame_ignorable` show the frame emitted last, and
`frame_valid = 1` only in the window's first cycle: kept by every step. Where the fields of a frame of other lengths
stand is the model's reading (log 9). -/
def Obligations.OpenWindowShowsTheLastFrame : Prop :=
  ∀ (cfg : Config) (s : State cfg.cntW), WindowInv cfg s →
    (s.window = true → ∃ e, s.emitted.getLast? = some e ∧ s.frameOut cfg = e.frame.pack cfg ∧
      s.frameIgnorable cfg = e.frame.canIgnoreMagic cfg) ∧
    ∃ t, stepAt cfg s = .next t ∧ WindowInv cfg t

/-- R184, R49: emissions are in the order of their edges and at least `FRAME_LEN` edges, 14 at the defaults,
apart: kept by every step. R184 gives the 14; that it is `FRAME_LEN` for other lengths is the model's (log 9). -/
def Obligations.EmissionsLieFourteenEdgesApart : Prop :=
  ∀ (cfg : Config) (s : State cfg.cntW), SpacingInv cfg s →
    ∃ t, stepAt cfg s = .next t ∧ SpacingInv cfg t

/-- R150, R153: every recorded discard has a non-empty set of reasons; a step records at most one, and never one
together with an emission; it forgets none. What a block of other parameters than the defaults discards is the
model's reading (log 9). -/
def Obligations.DiscardEventsAreWellFormed : Prop :=
  ∀ (cfg : Config) (s : State cfg.cntW), DiscardsInv s →
    ∃ t, stepAt cfg s = .next t ∧ DiscardsInv t ∧
      ((t.discards = s.discards ∧ t.emitted = s.emitted) ∨
       (∃ d, t.discards = s.discards ++ [d] ∧ t.emitted = s.emitted ∧ t.st = St.waitHdr ∧
        t.cnt = 0#cfg.cntW) ∨
       (∃ e, t.discards = s.discards ∧ t.emitted = s.emitted ++ [e] ∧ t.st = St.waitHdr ∧
        t.cnt = 0#cfg.cntW))

/-! Laws of the family: runs over any inputs. -/

/-- R63: 14 bytes consumed from `WAIT_HDR` are emitted, at the last of them, if and only if the three conditions hold;
no other byte value is checked and nothing else is emitted. -/
def Obligations.FourteenBytesAcceptedIff : Prop :=
  ∀ (s : State) (f : Frame), f.sized Config.std = true → s.st = St.waitHdr →
    ∃ t, s.feed (byteStream f.bytes) = .next t ∧
      t.emitted = s.emitted ++
        (if f.header = 0x53#8 ∧ f.checksum = sum8 f.command f.intensity f.colorBalance ∧ f.endByte = 0x00#8
          then [{ edge := s.edge + 14, frame := f }] else [])

/-- R110: a frame that meets R63, fed byte by byte from `WAIT_HDR`, is emitted at its 14th byte with `buf = f`, and
the ports show it. -/
def Obligations.RoundTripEmitsTheFrame : Prop :=
  ∀ (s : State) (f : Frame), f.sized Config.std = true → s.st = St.waitHdr → f.header = 0x53#8 →
    f.checksum = sum8 f.command f.intensity f.colorBalance → f.endByte = 0x00#8 →
    ∃ t, s.feed (byteStream f.bytes) = .next t ∧ Frame.ofBuf Config.std t.buf = f ∧
      t.emitted = s.emitted ++ [{ edge := s.edge + 14, frame := f }] ∧ t.discards = s.discards ∧
      t.st = St.waitHdr ∧ t.cnt = 0#3 ∧ t.frameValid = true ∧ t.frameOut Config.std = f.pack Config.std ∧
      t.frameIgnorable Config.std = f.canIgnoreMagic Config.std

/-- R111: two frames back to back are emitted at bytes 14 and 28, and a rejected frame does not harm the next. -/
def Obligations.BackToBackFramesAreBothEmitted : Prop :=
  ∀ (s : State) (f g : Frame), s.st = St.waitHdr → g.accepted Config.std = true →
    (f.accepted Config.std = true →
      ∃ t, s.feed (byteStream (f.bytes ++ g.bytes)) = .next t ∧
        t.emitted = s.emitted ++ [{ edge := s.edge + 14, frame := f }, { edge := s.edge + 28, frame := g }]) ∧
    (f.sized Config.std = true → f.header = 0x53#8 → f.wellFormed Config.std = false →
      ∃ t, s.feed (byteStream (f.bytes ++ g.bytes)) = .next t ∧
        t.emitted = s.emitted ++ [{ edge := s.edge + 28, frame := g }])

/-- R109: after any bytes G from `WAIT_HDR`, a frame F meeting R63 is emitted at its last byte if and only if the
parser is in `WAIT_HDR` after G; where G holds no `HDR_MARK`, exactly F is emitted. -/
def Obligations.ResynchronisesAfterGarbage : Prop :=
  ∀ (s : State) (G : List Byte) (f : Frame), s.st = St.waitHdr → f.accepted Config.std = true →
    ∃ g t, s.feed (byteStream G) = .next g ∧ s.feed (byteStream (G ++ f.bytes)) = .next t ∧
      ((t.fv = true ∧ t.emitted = g.emitted ++ [{ edge := s.edge + G.length + 14, frame := f }]) ↔
        g.st = St.waitHdr) ∧
      (t.fv = true ↔ g.st = St.waitHdr) ∧
      ((∀ b ∈ G, b ≠ 0x53#8) → g.st = St.waitHdr ∧ g.emitted = s.emitted ∧
        t.emitted = s.emitted ++ [{ edge := s.edge + G.length + 14, frame := f }])

/-- R173: from any state, reachable or not, the parser first reaches `WAIT_HDR` after exactly the number of bytes of
the table, at most 13, whatever the bytes; there it stays for every byte but `HDR_MARK`; any 13 bytes without
`HDR_MARK` leave it there; and SYNC does so and emits nothing. -/
def Obligations.RecoversWithinThirteenBytes : Prop :=
  (∀ (s : State) (bs : List Byte), bs.length = bytesNeeded Config.std s.st s.cnt →
    bs.length ≤ 13 ∧ (∃ t, s.feed (byteStream bs) = .next t ∧ t.st = St.waitHdr) ∧
    ∀ k, k < bs.length → ∃ t, s.feed (byteStream (bs.take k)) = .next t ∧ t.st ≠ St.waitHdr) ∧
  (∀ (s : State) (bs : List Byte), s.st = St.waitHdr → (∀ b ∈ bs, b ≠ 0x53#8) →
    ∃ t, s.feed (byteStream bs) = .next t ∧ t.st = St.waitHdr) ∧
  (∀ (s : State) (bs : List Byte), bs.length = 13 → (∀ b ∈ bs, b ≠ 0x53#8) →
    ∃ t, s.feed (byteStream bs) = .next t ∧ t.st = St.waitHdr) ∧
  (∀ s : State, ∃ t, s.feed syncStream = .next t ∧ t.st = St.waitHdr ∧ t.emitted = s.emitted)

/-- R105, for the legal states (an illegal one recovers, R104): `HDR_MARK` consumed outside `WAIT_HDR` is handled as
data or as a terminator; and from any state outside `WAIT_HDR` the next `st` and `cnt` do not depend on the byte. -/
def Obligations.NoMidFrameResynchronisation : Prop :=
  (∀ s : State, s.st ≠ St.waitHdr → illegal Config.std s.st s.cnt = false →
    ∃ i ∈ [Instr.idAcc 0x53, Instr.idLast 0x53, Instr.dataAcc 0x53, Instr.dataLast 0x53, Instr.ckCapture 0x53,
        Instr.endRejectTerm 0x53],
      decode Config.std (wordOf Config.std (byteEdge 0x53) s) = .ok i ∧ ∃ t, exec i s = .next t ∧
        t.buf.read (position Config.std s.st s.cnt) = 0x53#8) ∧
  (∀ (s : State) (b c : Byte), s.st ≠ St.waitHdr →
    ∃ t u, cycle (byteEdge b) s = .next t ∧ cycle (byteEdge c) s = .next u ∧
      t.st = u.st ∧ t.cnt = u.cnt)

/-- R91: `parseByte` answers the state after the consuming edge of the byte, and true on exactly the consuming edges
that emit a frame, which are those that perform END_ACCEPT; and the accepted frames (and `st`, `cnt`, `buf`) do not
depend on how many idle edges stand among the bytes. -/
def Obligations.AcceptedFramesIgnoreIdleEdges : Prop :=
  (∀ (s : State) (b : Byte), ∃ t, cycle (byteEdge b) (s.advance s.inputs) = .next t ∧
    parseByte s b = some (t, t.fv) ∧ (t.fv = true ↔ newFrame s t ≠ none) ∧
    (t.fv = true ↔ decode Config.std (wordOf Config.std (byteEdge b) s) = .ok (.endAccept b))) ∧
  (∀ (s : State) (xs : List EdgeInput),
    ∃ t u, s.feed xs = .next t ∧ s.feed (xs.filter fun x => !x.idles) = .next u ∧
      t.st = u.st ∧ t.cnt = u.cnt ∧ t.buf = u.buf ∧
      (t.emitted.map fun e => e.frame) = (u.emitted.map fun e => e.frame))

/-- R112: a run of idle edges emits nothing and leaves `st`, `cnt` and `buf`; a run of reset edges alone ends in the
reset values of R32. -/
def Obligations.EmptyStreamEmitsNothing : Prop :=
  (∀ (s : State) (xs : List EdgeInput), (∀ x ∈ xs, x.idles = true) →
    ∃ t, s.feed xs = .next t ∧ t.st = s.st ∧ t.cnt = s.cnt ∧ t.buf = s.buf ∧ t.emitted = s.emitted ∧
      t.window = s.window) ∧
  (∀ (s : State) (xs : List EdgeInput), xs ≠ [] → (∀ x ∈ xs, x.rst = true) →
    ∃ t, s.feed xs = .next t ∧ t.st = St.waitHdr ∧ t.cnt = 0#3 ∧ (∀ p, t.buf.read p = 0x00#8) ∧ t.fv = false ∧
      t.emitted = s.emitted)

/-- R28, the column `buf` of its table: with any idle edges among them, the bytes of the frame in progress stand at
the cells of their positions, and `st` and `cnt` say how many they are. -/
def Obligations.FrameInProgressHoldsItsBytes : Prop :=
  ∀ (s : State) (xs : List EdgeInput) (bs : List Byte), s.st = St.waitHdr → (∀ x ∈ xs, x.rst = false) →
    consumedBytes xs = 0x53#8 :: bs → bs.length ≤ 12 →
    ∃ t, s.feed xs = .next t ∧ SequencingInv Config.std t ∧ position Config.std t.st t.cnt = bs.length + 1 ∧
      ∀ p, p < bs.length + 1 → (0x53#8 :: bs)[p]? = some (t.buf.read p)

/-- R180, point 3, the counting behind its figure: of the 65536 pairs of checksum and end byte, exactly one makes a
header and 11 given bytes an accepted frame. -/
def Obligations.ExactlyOneEndingIsAccepted : Prop :=
  ∀ (s : State) (f : Frame), f.sized Config.std = true → s.st = St.waitHdr → f.header = 0x53#8 →
    ∃! p : Byte × Byte, ∃ t e,
      s.feed (byteStream (Frame.bytes { f with checksum := p.1, endByte := p.2 })) = .next t ∧
        t.emitted = s.emitted ++ [e]

/-- R137 with conflict C4: on the frames of a state the sequencing invariant allows, and after any step from it, the
consumer's checksum test never fires, so it discards exactly the ignorable ones. -/
def Obligations.ConsumerChecksumTestIsDead : Prop :=
  ∀ s : State, SequencingInv Config.std s → EmittedAccepted Config.std s →
    ∃ t, step s = .next t ∧
      ∀ e ∈ t.emitted, e.frame.consumerDiscards Config.std = decide (e.frame.magic = 0xA4#8)

/-- R108, for one edge: what an edge does to `st`, `cnt` and `fv` depends on the buffer only through cells 9 to 12;
the identification and the magic byte take no part. -/
def Obligations.AcceptanceReadsOnlyFourCells : Prop :=
  ∀ (x : EdgeInput) (s u : State), s.st = u.st → s.cnt = u.cnt →
    (∀ p, 9 ≤ p → p ≤ 12 → s.buf.read p = u.buf.read p) →
    ∃ s' u', cycle x s = .next s' ∧ cycle x u = .next u' ∧
      s'.st = u'.st ∧ s'.cnt = u'.cnt ∧ s'.fv = u'.fv

/-- R172, point 1: from the any-value registers before the first reset edge, one reset edge gives the values of R32,
and without a reset `WAIT_HDR` is reached within 13 bytes. -/
def Obligations.PowerUpNeedsNoReset : Prop :=
  (∃ t, State.powerUp.feed [resetEdge] = .next t ∧ t.st = St.waitHdr ∧ t.cnt = 0#3 ∧ t.fv = false ∧
    ∀ p, t.buf.read p = 0x00#8) ∧
  ∃ n, n ≤ 13 ∧ ∀ bs : List Byte, bs.length = n →
    ∃ t, State.powerUp.feed (byteStream bs) = .next t ∧ t.st = St.waitHdr

/-! Every value of the parameters (R5). -/

/-- R5 with D19: the machine is the block of the default parameters. Its edge, its step and its run are those of a
block built with `Config.std`, and `Config.std` is a valid record with `FRAME_LEN` = 14. -/
def Obligations.MachineIsTheDefaultBlock : Prop :=
  Config.std.valid = true ∧ Config.std.tableValid = true ∧ Config.std.frameLen = 14 ∧
  (∀ (x : EdgeInput) (s : State), cycleAt Config.std x s = cycle x s) ∧
  (∀ s : State, stepAt Config.std s = step s) ∧
  (∀ (xs : List EdgeInput) (s : State), State.feedAt Config.std xs s = s.feed xs)

/-- R69 and R90 at the defaults: an edge performs the operation the column "selects" names. For other lengths R5 says
only that the opcode table must not be used. That the edge then performs what the same column names with those lengths,
RECOVER for every `cnt` from `ID_LEN` or `DATA_LEN` up, is the model's reading, DEDUCED (log 9), and so is which cells
each operation stores to. -/
def Obligations.EdgePerformsTheDirectReading : Prop :=
  ∀ (cfg : Config) (x : EdgeInput) (s : State cfg.cntW),
    cycleAt cfg x s =
      perform cfg (readDirect cfg x.rst x.inValid (ckOk cfg s.buf) s.st s.cnt x.inByte) s

/-- R63 with R5 and R62: in a block of any valid parameters, `FRAME_LEN` bytes consumed from `WAIT_HDR` are emitted, at
the last of them, if and only if the three conditions hold, the checksum modulo 2 to the power `CK_WIDTH`; and an
accepted frame stands in the buffer and, in the open window, on the ports. R63 gives this for the defaults; for other
parameters the positions, the comparison with the whole checksum byte and `Config.valid` are the model's (log 9). -/
def Obligations.FrameOfAnyLengthsAcceptedIff : Prop :=
  ∀ (cfg : Config) (s : State cfg.cntW) (f : Frame), cfg.valid = true → f.sized cfg = true → s.st = St.waitHdr →
    f.bytes.length = cfg.frameLen ∧
    ∃ t, State.feedAt cfg (byteStream f.bytes) s = .next t ∧
      t.emitted = s.emitted ++
        (if f.header = cfg.hdrMark ∧
            f.checksum.toNat =
              (f.command.toNat + f.intensity.toNat + f.colorBalance.toNat) % 2 ^ cfg.ckWidth ∧
            f.endByte = cfg.endMark
          then [{ edge := s.edge + cfg.frameLen, frame := f }] else []) ∧
      (f.accepted cfg = true → Frame.ofBuf cfg t.buf = f ∧ t.frameOut cfg = f.pack cfg ∧
        t.frameIgnorable cfg = decide (f.data[0]? = some cfg.ignoreMagic))

/-- R173 with R5: in a block of any valid parameters, from any state, the bytes the recovery table gives for it lead
to `WAIT_HDR`, at most `FRAME_LEN` - 1 of them, whatever they are. R173 gives its table for the defaults only. The
table for other lengths, with recovery in one byte of every `cnt` from `ID_LEN` or `DATA_LEN` up, is the model's
reading, DEDUCED (log 9). -/
def Obligations.RecoveryBoundForAnyLengths : Prop :=
  ∀ (cfg : Config) (s : State cfg.cntW) (bs : List Byte), cfg.valid = true →
    bs.length = bytesNeeded cfg s.st s.cnt →
    bs.length ≤ cfg.frameLen - 1 ∧ ∃ t, State.feedAt cfg (byteStream bs) s = .next t ∧ t.st = St.waitHdr
end

