-- ==== Sys2Proof/Laws/Memory.lean ====
section
/-! SUPPORT. The frame buffer: a read after a write, and every operation keeps the canonical form. -/

namespace Sys2Proof.Machine

@[simp] theorem Memory.read_clear (p : Nat) : Memory.clear.read p = 0x00#8 := rfl

@[simp] theorem Memory.read_nil (p : Nat) : Memory.read [] p = 0x00#8 := rfl

theorem Memory.read_cons (k : Nat) (v : Byte) (m : Memory) (p : Nat) :
    Memory.read ((k, v) :: m) p = if k = p then v else m.read p := rfl

theorem Memory.read_erase (m : Memory) (p q : Nat) :
    (m.erase p).read q = if q = p then 0x00#8 else m.read q := by
  induction m with
  | nil => simp [Memory.erase]
  | cons c m ih =>
    obtain ⟨k, v⟩ := c
    simp only [Memory.erase, Memory.read_cons]
    by_cases hk : k = p
    · by_cases hq : q = p <;> simp_all [eq_comm]
    · by_cases hq : k = q <;> simp_all [Memory.read_cons]

theorem Memory.read_insert (m : Memory) (p q : Nat) (v : Byte)
    (hp : ∀ c ∈ m, c.1 ≠ p) : (m.insert p v).read q = if q = p then v else m.read q := by
  induction m with
  | nil => simp [Memory.insert, Memory.read_cons, eq_comm]
  | cons c m ih =>
    obtain ⟨k, w⟩ := c
    have hk : k ≠ p := hp (k, w) (by simp)
    have ih := ih (fun c hc => hp c (by simp [hc]))
    by_cases hlt : p < k
    · simp [Memory.insert, hlt, Memory.read_cons, eq_comm]
    · by_cases hq : q = p
      · subst hq; simp [Memory.insert, hlt, Memory.read_cons, hk, ih]
      · simp [Memory.insert, hlt, Memory.read_cons, hq, ih]

theorem Memory.erase_ne (m : Memory) (p : Nat) : ∀ c ∈ m.erase p, c.1 ≠ p := by
  induction m with
  | nil => simp [Memory.erase]
  | cons c m ih =>
    obtain ⟨k, v⟩ := c
    by_cases hk : k = p
    · simpa [Memory.erase, hk] using ih
    · simpa [Memory.erase, hk] using ih

/-- A read after a write: the value written at its cell, and what stood there at every other. -/
theorem Memory.read_write (m : Memory) (p q : Nat) (v : Byte) :
    (m.write p v).read q = if q = p then v else m.read q := by
  unfold Memory.write
  by_cases hv : v = Memory.unlisted
  · simp [hv, Memory.read_erase]
  · rw [if_neg hv, Memory.read_insert _ _ _ _ (Memory.erase_ne m p), Memory.read_erase]
    by_cases hq : q = p <;> simp [hq]

@[simp] theorem Memory.read_write_same (m : Memory) (p : Nat) (v : Byte) : (m.write p v).read p = v := by
  simp [Memory.read_write]

theorem Memory.read_write_ne (m : Memory) {p q : Nat} (h : q ≠ p) (v : Byte) :
    (m.write p v).read q = m.read q := by
  simp [Memory.read_write, h]

theorem Memory.wfFrom_cons (n lo k : Nat) (v : Byte) (m : Memory) :
    Memory.wfFrom n lo ((k, v) :: m) = true ↔
      lo ≤ k ∧ k < n ∧ v ≠ Memory.unlisted ∧ Memory.wfFrom n (k + 1) m = true := by
  simp [Memory.wfFrom, and_assoc]

theorem Memory.wfFrom_mono {n lo lo' : Nat} (h : lo' ≤ lo) (m : Memory) (hm : Memory.wfFrom n lo m = true) :
    Memory.wfFrom n lo' m = true := by
  cases m with
  | nil => rfl
  | cons c m =>
    obtain ⟨k, v⟩ := c
    rw [Memory.wfFrom_cons] at hm ⊢
    exact ⟨h.trans hm.1, hm.2⟩

theorem Memory.wfFrom_erase (n lo p : Nat) (m : Memory) (hm : Memory.wfFrom n lo m = true) :
    Memory.wfFrom n lo (m.erase p) = true := by
  induction m generalizing lo with
  | nil => rfl
  | cons c m ih =>
    obtain ⟨k, v⟩ := c
    rw [Memory.wfFrom_cons] at hm
    by_cases hk : k = p
    · simpa [Memory.erase, hk] using ih lo (Memory.wfFrom_mono (by omega) m hm.2.2.2)
    · simp only [Memory.erase, hk, if_false]
      rw [Memory.wfFrom_cons]
      exact ⟨hm.1, hm.2.1, hm.2.2.1, ih _ hm.2.2.2⟩

theorem Memory.wfFrom_insert (n lo p : Nat) (v : Byte) (m : Memory) (hm : Memory.wfFrom n lo m = true)
    (hlo : lo ≤ p) (hp : p < n) (hv : v ≠ Memory.unlisted) (hne : ∀ c ∈ m, c.1 ≠ p) :
    Memory.wfFrom n lo (m.insert p v) = true := by
  induction m generalizing lo with
  | nil => simp only [Memory.insert]; rw [Memory.wfFrom_cons]; exact ⟨hlo, hp, hv, rfl⟩
  | cons c m ih =>
    obtain ⟨k, w⟩ := c
    have hk : k ≠ p := hne (k, w) (by simp)
    rw [Memory.wfFrom_cons] at hm
    by_cases hlt : p < k
    · simp only [Memory.insert, hlt, if_true]
      rw [Memory.wfFrom_cons, Memory.wfFrom_cons]
      exact ⟨hlo, hp, hv, hlt, hm.2⟩
    · simp only [Memory.insert, hlt, if_false]
      rw [Memory.wfFrom_cons]
      exact ⟨hm.1, hm.2.1, hm.2.2.1, ih _ hm.2.2.2 (by omega) (fun c hc => hne c (by simp [hc]))⟩

/-- A write to a cell of the buffer keeps the canonical form. -/
theorem Memory.wf_write {cfg : Config} (m : Memory) (p : Nat) (v : Byte) (hm : m.wf cfg = true)
    (hp : p < cfg.frameLen) : (m.write p v).wf cfg = true := by
  unfold Memory.write Memory.wf
  by_cases hv : v = Memory.unlisted
  · simpa [hv] using Memory.wfFrom_erase _ 0 p m hm
  · rw [if_neg hv]
    exact Memory.wfFrom_insert _ 0 p v _ (Memory.wfFrom_erase _ 0 p m hm) (Nat.zero_le _) hp hv (Memory.erase_ne m p)

@[simp] theorem Memory.wf_clear (cfg : Config) : Memory.clear.wf cfg = true := rfl

theorem Memory.read_fill (f : Nat → Byte) (n p : Nat) :
    (Memory.fill f n).read p = if p < n then f p else 0x00#8 := by
  induction n with
  | zero => simp [Memory.fill]
  | succ n ih =>
    simp only [Memory.fill, Memory.read_write, ih]
    by_cases h : p = n
    · simp [h]
    · by_cases h2 : p < n
      · simp [h, h2, Nat.lt_succ_of_lt h2]
      · simp [h, h2, show ¬ p < n + 1 by omega]

/-- The buffer of a machine before its first reset is in the canonical form too. -/
theorem Memory.wf_fill {cfg : Config} (f : Nat → Byte) (n : Nat) (hn : n ≤ cfg.frameLen) :
    (Memory.fill f n).wf cfg = true := by
  induction n with
  | zero => rfl
  | succ n ih => exact Memory.wf_write _ _ _ (ih (by omega)) (by omega)

theorem Memory.read_eq_unlisted_of_wfFrom {n lo p : Nat} (m : Memory) (hm : Memory.wfFrom n lo m = true) (hp : p < lo) :
    m.read p = Memory.unlisted := by
  induction m generalizing lo with
  | nil => rfl
  | cons c m ih =>
    obtain ⟨k, v⟩ := c
    rw [Memory.wfFrom_cons] at hm
    rw [Memory.read_cons, if_neg (by omega)]
    exact ih hm.2.2.2 (by omega)

theorem Memory.wfFrom_ext (len lo : Nat) (m n : Memory) (hm : Memory.wfFrom len lo m = true)
    (hn : Memory.wfFrom len lo n = true)
    (h : ∀ p, m.read p = n.read p) : m = n := by
  induction m generalizing lo n with
  | nil =>
    cases n with
    | nil => rfl
    | cons d n =>
      obtain ⟨k, v⟩ := d
      rw [Memory.wfFrom_cons] at hn
      have := h k
      simp [Memory.read_cons] at this
      exact absurd this.symm hn.2.2.1
  | cons c m ih =>
    obtain ⟨k, v⟩ := c
    rw [Memory.wfFrom_cons] at hm
    cases n with
    | nil =>
      have := h k
      simp [Memory.read_cons] at this
      exact absurd this hm.2.2.1
    | cons d n =>
      obtain ⟨l, w⟩ := d
      rw [Memory.wfFrom_cons] at hn
      have hkl : k = l := by
        rcases Nat.lt_trichotomy k l with hlt | heq | hgt
        · have := h k
          rw [Memory.read_cons, if_pos rfl, Memory.read_cons, if_neg (by omega),
            Memory.read_eq_unlisted_of_wfFrom n hn.2.2.2 (by omega)] at this
          exact absurd this hm.2.2.1
        · exact heq
        · have := h l
          rw [Memory.read_cons, if_neg (by omega), Memory.read_cons, if_pos rfl,
            Memory.read_eq_unlisted_of_wfFrom m hm.2.2.2 (by omega)] at this
          exact absurd this.symm hn.2.2.1
      subst hkl
      have hv : v = w := by simpa [Memory.read_cons] using h k
      subst hv
      congr 1
      refine ih (k + 1) n hm.2.2.2 hn.2.2.2 fun p => ?_
      by_cases hp : k = p
      · subst hp
        rw [Memory.read_eq_unlisted_of_wfFrom m hm.2.2.2 (by omega),
          Memory.read_eq_unlisted_of_wfFrom n hn.2.2.2 (by omega)]
      · simpa [Memory.read_cons, hp] using h p

/-- Two buffers in the canonical form that read alike at every address are equal data. -/
theorem Memory.ext_of_wf {cfg : Config} (m n : Memory) (hm : m.wf cfg = true) (hn : n.wf cfg = true)
    (h : ∀ p, m.read p = n.read p) : m = n :=
  Memory.wfFrom_ext _ 0 m n hm hn h

end Sys2Proof.Machine
end

