-- ==== Sys2Proof/Laws/State.lean ====
section
/-! SUPPORT. What each named update of State writes, one lemma a field, true by rfl. -/

namespace Sys2Proof

@[simp] theorem Config.std_hdrMark : Config.std.hdrMark = 0x53#8 := rfl
@[simp] theorem Config.std_endMark : Config.std.endMark = 0x00#8 := rfl
@[simp] theorem Config.std_ignoreMagic : Config.std.ignoreMagic = 0xA4#8 := rfl
@[simp] theorem Config.std_idLen : Config.std.idLen = 7 := rfl
@[simp] theorem Config.std_dataLen : Config.std.dataLen = 4 := rfl
@[simp] theorem Config.std_ckWidth : Config.std.ckWidth = 8 := rfl
@[simp] theorem Config.std_cntW : Config.std.cntW = 3 := rfl
@[simp] theorem Config.std_valid : Config.std.valid = true := rfl
@[simp] theorem Config.std_tableValid : Config.std.tableValid = true := rfl

/-- What `Config.valid` says. -/
theorem Config.valid_iff (cfg : Config) : cfg.valid = true ↔
    1 ≤ cfg.idLen ∧ 1 ≤ cfg.dataLen ∧ cfg.idLen ≤ 2 ^ cfg.cntW ∧ cfg.dataLen ≤ 2 ^ cfg.cntW ∧
    1 ≤ cfg.ckWidth ∧ cfg.ckWidth ≤ 8 := by
  simp [Config.valid, and_assoc]
  omega

/-- What `Config.tableValid` says. -/
theorem Config.tableValid_iff (cfg : Config) : cfg.tableValid = true ↔
    cfg.idLen = 7 ∧ cfg.dataLen = 4 ∧ cfg.cntW = 3 := by
  simp [Config.tableValid, and_assoc]

/-- Every cell of the buffer has an address. -/
theorem Config.lt_two_pow_addrW {cfg : Config} {p : Nat} (h : p < cfg.frameLen) : p < 2 ^ cfg.addrW := by
  have := Nat.lt_log2_self (n := cfg.frameLen - 1)
  unfold Config.addrW
  omega

end Sys2Proof

namespace Sys2Proof.Machine

variable {cntW : Nat}

@[simp] theorem State.setSeq_st (c : StCode) (k : BitVec cntW) (s : State cntW) :
    (s.setSeq c k).st = c := rfl
@[simp] theorem State.setSeq_cnt (c : StCode) (k : BitVec cntW) (s : State cntW) :
    (s.setSeq c k).cnt = k := rfl
@[simp] theorem State.setSeq_buf (c : StCode) (k : BitVec cntW) (s : State cntW) :
    (s.setSeq c k).buf = s.buf := rfl
@[simp] theorem State.setSeq_fv (c : StCode) (k : BitVec cntW) (s : State cntW) :
    (s.setSeq c k).fv = s.fv := rfl
@[simp] theorem State.setSeq_window (c : StCode) (k : BitVec cntW) (s : State cntW) :
    (s.setSeq c k).window = s.window := rfl
@[simp] theorem State.setSeq_edge (c : StCode) (k : BitVec cntW) (s : State cntW) :
    (s.setSeq c k).edge = s.edge := rfl
@[simp] theorem State.setSeq_emitted (c : StCode) (k : BitVec cntW) (s : State cntW) :
    (s.setSeq c k).emitted = s.emitted := rfl
@[simp] theorem State.setSeq_discards (c : StCode) (k : BitVec cntW) (s : State cntW) :
    (s.setSeq c k).discards = s.discards := rfl
@[simp] theorem State.setSeq_inputs (c : StCode) (k : BitVec cntW) (s : State cntW) :
    (s.setSeq c k).inputs = s.inputs := rfl

@[simp] theorem State.clearFv_st (s : State cntW) :
    s.clearFv.st = s.st := rfl
@[simp] theorem State.clearFv_cnt (s : State cntW) :
    s.clearFv.cnt = s.cnt := rfl
@[simp] theorem State.clearFv_buf (s : State cntW) :
    s.clearFv.buf = s.buf := rfl
@[simp] theorem State.clearFv_fv (s : State cntW) :
    s.clearFv.fv = false := rfl
@[simp] theorem State.clearFv_window (s : State cntW) :
    s.clearFv.window = s.window := rfl
@[simp] theorem State.clearFv_edge (s : State cntW) :
    s.clearFv.edge = s.edge := rfl
@[simp] theorem State.clearFv_emitted (s : State cntW) :
    s.clearFv.emitted = s.emitted := rfl
@[simp] theorem State.clearFv_discards (s : State cntW) :
    s.clearFv.discards = s.discards := rfl
@[simp] theorem State.clearFv_inputs (s : State cntW) :
    s.clearFv.inputs = s.inputs := rfl

@[simp] theorem State.closeWindow_st (s : State cntW) :
    s.closeWindow.st = s.st := rfl
@[simp] theorem State.closeWindow_cnt (s : State cntW) :
    s.closeWindow.cnt = s.cnt := rfl
@[simp] theorem State.closeWindow_buf (s : State cntW) :
    s.closeWindow.buf = s.buf := rfl
@[simp] theorem State.closeWindow_fv (s : State cntW) :
    s.closeWindow.fv = false := rfl
@[simp] theorem State.closeWindow_window (s : State cntW) :
    s.closeWindow.window = false := rfl
@[simp] theorem State.closeWindow_edge (s : State cntW) :
    s.closeWindow.edge = s.edge := rfl
@[simp] theorem State.closeWindow_emitted (s : State cntW) :
    s.closeWindow.emitted = s.emitted := rfl
@[simp] theorem State.closeWindow_discards (s : State cntW) :
    s.closeWindow.discards = s.discards := rfl
@[simp] theorem State.closeWindow_inputs (s : State cntW) :
    s.closeWindow.inputs = s.inputs := rfl

@[simp] theorem State.setBuf_st (m : Memory) (s : State cntW) :
    (s.setBuf m).st = s.st := rfl
@[simp] theorem State.setBuf_cnt (m : Memory) (s : State cntW) :
    (s.setBuf m).cnt = s.cnt := rfl
@[simp] theorem State.setBuf_buf (m : Memory) (s : State cntW) :
    (s.setBuf m).buf = m := rfl
@[simp] theorem State.setBuf_fv (m : Memory) (s : State cntW) :
    (s.setBuf m).fv = s.fv := rfl
@[simp] theorem State.setBuf_window (m : Memory) (s : State cntW) :
    (s.setBuf m).window = s.window := rfl
@[simp] theorem State.setBuf_edge (m : Memory) (s : State cntW) :
    (s.setBuf m).edge = s.edge := rfl
@[simp] theorem State.setBuf_emitted (m : Memory) (s : State cntW) :
    (s.setBuf m).emitted = s.emitted := rfl
@[simp] theorem State.setBuf_discards (m : Memory) (s : State cntW) :
    (s.setBuf m).discards = s.discards := rfl
@[simp] theorem State.setBuf_inputs (m : Memory) (s : State cntW) :
    (s.setBuf m).inputs = s.inputs := rfl

@[simp] theorem State.emit_st (cfg : Config) (s : State cntW) :
    (s.emit cfg).st = s.st := rfl
@[simp] theorem State.emit_cnt (cfg : Config) (s : State cntW) :
    (s.emit cfg).cnt = s.cnt := rfl
@[simp] theorem State.emit_buf (cfg : Config) (s : State cntW) :
    (s.emit cfg).buf = s.buf := rfl
@[simp] theorem State.emit_fv (cfg : Config) (s : State cntW) :
    (s.emit cfg).fv = true := rfl
@[simp] theorem State.emit_window (cfg : Config) (s : State cntW) :
    (s.emit cfg).window = true := rfl
@[simp] theorem State.emit_edge (cfg : Config) (s : State cntW) :
    (s.emit cfg).edge = s.edge := rfl
@[simp] theorem State.emit_emitted (cfg : Config) (s : State cntW) :
    (s.emit cfg).emitted = s.emitted ++ [{ edge := s.edge, frame := Frame.ofBuf cfg s.buf }] := rfl
@[simp] theorem State.emit_discards (cfg : Config) (s : State cntW) :
    (s.emit cfg).discards = s.discards := rfl
@[simp] theorem State.emit_inputs (cfg : Config) (s : State cntW) :
    (s.emit cfg).inputs = s.inputs := rfl

@[simp] theorem State.discard_st (rs : List Cause) (r : DiscardRecord cntW) (s : State cntW) :
    (s.discard rs r).st = St.waitHdr := rfl
@[simp] theorem State.discard_cnt (rs : List Cause) (r : DiscardRecord cntW) (s : State cntW) :
    (s.discard rs r).cnt = 0#cntW := rfl
@[simp] theorem State.discard_buf (rs : List Cause) (r : DiscardRecord cntW) (s : State cntW) :
    (s.discard rs r).buf = s.buf := rfl
@[simp] theorem State.discard_fv (rs : List Cause) (r : DiscardRecord cntW) (s : State cntW) :
    (s.discard rs r).fv = false := rfl
@[simp] theorem State.discard_window (rs : List Cause) (r : DiscardRecord cntW) (s : State cntW) :
    (s.discard rs r).window = false := rfl
@[simp] theorem State.discard_edge (rs : List Cause) (r : DiscardRecord cntW) (s : State cntW) :
    (s.discard rs r).edge = s.edge := rfl
@[simp] theorem State.discard_emitted (rs : List Cause) (r : DiscardRecord cntW) (s : State cntW) :
    (s.discard rs r).emitted = s.emitted := rfl
@[simp] theorem State.discard_discards (rs : List Cause) (r : DiscardRecord cntW) (s : State cntW) :
    (s.discard rs r).discards = s.discards ++ [{ edge := s.edge, reasons := rs, record := r }] := rfl
@[simp] theorem State.discard_inputs (rs : List Cause) (r : DiscardRecord cntW) (s : State cntW) :
    (s.discard rs r).inputs = s.inputs := rfl

@[simp] theorem State.advance_st (xs : List EdgeInput) (s : State cntW) :
    (s.advance xs).st = s.st := rfl
@[simp] theorem State.advance_cnt (xs : List EdgeInput) (s : State cntW) :
    (s.advance xs).cnt = s.cnt := rfl
@[simp] theorem State.advance_buf (xs : List EdgeInput) (s : State cntW) :
    (s.advance xs).buf = s.buf := rfl
@[simp] theorem State.advance_fv (xs : List EdgeInput) (s : State cntW) :
    (s.advance xs).fv = s.fv := rfl
@[simp] theorem State.advance_window (xs : List EdgeInput) (s : State cntW) :
    (s.advance xs).window = s.window := rfl
@[simp] theorem State.advance_edge (xs : List EdgeInput) (s : State cntW) :
    (s.advance xs).edge = s.edge + 1 := rfl
@[simp] theorem State.advance_emitted (xs : List EdgeInput) (s : State cntW) :
    (s.advance xs).emitted = s.emitted := rfl
@[simp] theorem State.advance_discards (xs : List EdgeInput) (s : State cntW) :
    (s.advance xs).discards = s.discards := rfl
@[simp] theorem State.advance_inputs (xs : List EdgeInput) (s : State cntW) :
    (s.advance xs).inputs = xs := rfl

@[simp] theorem State.present_st (xs : List EdgeInput) (s : State cntW) :
    (s.present xs).st = s.st := rfl
@[simp] theorem State.present_cnt (xs : List EdgeInput) (s : State cntW) :
    (s.present xs).cnt = s.cnt := rfl
@[simp] theorem State.present_buf (xs : List EdgeInput) (s : State cntW) :
    (s.present xs).buf = s.buf := rfl
@[simp] theorem State.present_fv (xs : List EdgeInput) (s : State cntW) :
    (s.present xs).fv = s.fv := rfl
@[simp] theorem State.present_window (xs : List EdgeInput) (s : State cntW) :
    (s.present xs).window = s.window := rfl
@[simp] theorem State.present_edge (xs : List EdgeInput) (s : State cntW) :
    (s.present xs).edge = s.edge := rfl
@[simp] theorem State.present_emitted (xs : List EdgeInput) (s : State cntW) :
    (s.present xs).emitted = s.emitted := rfl
@[simp] theorem State.present_discards (xs : List EdgeInput) (s : State cntW) :
    (s.present xs).discards = s.discards := rfl
@[simp] theorem State.present_inputs (xs : List EdgeInput) (s : State cntW) :
    (s.present xs).inputs = xs := rfl

@[simp] theorem State.present_present (xs ys : List EdgeInput) (s : State cntW) :
    (s.present xs).present ys = s.present ys := rfl
@[simp] theorem State.present_inputs_self (s : State cntW) : s.present s.inputs = s := rfl
@[simp] theorem State.advance_present (xs ys : List EdgeInput) (s : State cntW) :
    (s.present xs).advance ys = s.advance ys := rfl

end Sys2Proof.Machine
end

