-- ==== Sys2Proof/Laws/Frame.lean ====
section
/-! SUPPORT. The frame the buffer holds, field by field, and the packing of its bytes. -/

namespace Sys2Proof.Machine

variable {cfg : Config}

@[simp] theorem Frame.ofBuf_header (m : Memory) : (Frame.ofBuf cfg m).header = m.read 0 := rfl
@[simp] theorem Frame.ofBuf_checksum (m : Memory) : (Frame.ofBuf cfg m).checksum = m.read cfg.ckPos := rfl
@[simp] theorem Frame.ofBuf_endByte (m : Memory) : (Frame.ofBuf cfg m).endByte = m.read cfg.endPos := rfl

@[simp] theorem Frame.ofBuf_magic_std (m : Memory) : (Frame.ofBuf Config.std m).magic = m.read 8 := rfl
@[simp] theorem Frame.ofBuf_command_std (m : Memory) : (Frame.ofBuf Config.std m).command = m.read 9 := rfl
@[simp] theorem Frame.ofBuf_intensity_std (m : Memory) : (Frame.ofBuf Config.std m).intensity = m.read 10 := rfl
@[simp] theorem Frame.ofBuf_colorBalance_std (m : Memory) : (Frame.ofBuf Config.std m).colorBalance = m.read 11 := rfl

/-- The frame of a buffer has the lengths of the parameters. -/
@[simp] theorem Frame.sized_ofBuf (m : Memory) : (Frame.ofBuf cfg m).sized cfg = true := by
  simp [Frame.sized, Frame.ofBuf, Frame.ofRead]

/-- Two buffers that read alike in every cell hold the same frame. -/
theorem Frame.ofRead_congr {r r' : Nat → Byte} (h : ∀ p, p < cfg.frameLen → r p = r' p) :
    Frame.ofRead cfg r = Frame.ofRead cfg r' := by
  have hi : ∀ k ∈ List.range cfg.idLen, r (1 + k) = r' (1 + k) := fun k hk => by
    rw [List.mem_range] at hk; exact h _ (by simp; omega)
  have hd : ∀ k ∈ List.range cfg.dataLen, r (cfg.dataPos + k) = r' (cfg.dataPos + k) := fun k hk => by
    rw [List.mem_range] at hk; exact h _ (by simp; omega)
  rw [Frame.ofRead, Frame.ofRead, List.map_congr_left hi, List.map_congr_left hd, h 0 (by simp),
    h cfg.ckPos (by simp), h cfg.endPos (by simp)]

/-- A store of the end byte changes the end byte of the frame alone. -/
theorem Frame.ofBuf_write_end (m : Memory) (b : Byte) :
    Frame.ofBuf cfg (m.write cfg.endPos b) = { Frame.ofBuf cfg m with endByte := b } := by
  have h : ∀ p, p < cfg.endPos → (m.write cfg.endPos b).read p = m.read p := fun p hp =>
    Memory.read_write_ne m (Nat.ne_of_lt hp) b
  have hi : ∀ k ∈ List.range cfg.idLen, (m.write cfg.endPos b).read (1 + k) = m.read (1 + k) := fun k hk => by
    rw [List.mem_range] at hk; exact h _ (by simp; omega)
  have hd : ∀ k ∈ List.range cfg.dataLen, (m.write cfg.endPos b).read (cfg.dataPos + k) = m.read (cfg.dataPos + k) :=
    fun k hk => by rw [List.mem_range] at hk; exact h _ (by simp; omega)
  rw [Frame.ofBuf, Frame.ofRead, List.map_congr_left hi, List.map_congr_left hd, h 0 (by simp),
    h cfg.ckPos (by simp), Memory.read_write_same]
  rfl

/-- The length of a frame's bytes. -/
theorem Frame.length_bytes {f : Frame} (h : f.sized cfg = true) : f.bytes.length = cfg.frameLen := by
  simp [Frame.sized] at h
  simp [Frame.bytes, h.1, h.2]
  omega

/-- The sum of R130 as a number. -/
theorem sumBits_toNat (n : Nat) (c i k : Byte) :
    (sumBits n c i k).toNat = (c.toNat + i.toNat + k.toNat) % 2 ^ n := by
  have hc := c.isLt
  have hi := i.isLt
  have hk := k.isLt
  have h10 : (c.setWidth 10 + i.setWidth 10 + k.setWidth 10).toNat = c.toNat + i.toNat + k.toNat := by
    simp [BitVec.toNat_add, BitVec.toNat_setWidth]
    omega
  rw [sumBits, BitVec.toNat_setWidth, h10]

end Sys2Proof.Machine
end

