-- ==== Sys2Proof/Laws/Ops.lean ====
section
/-! SUPPORT. For each shared operation, what it can do, said once. -/

namespace Sys2Proof.Machine

variable {cntW : Nat} {cfg : Config}

/-! Cells. Every address below is that of a cell, so none wraps. -/

@[simp] theorem headerCell_toNat : (headerCell cfg).toNat = 0 := by simp [headerCell]

@[simp] theorem checksumCell_toNat : (checksumCell cfg).toNat = cfg.ckPos := by
  rw [checksumCell, BitVec.toNat_ofNat, Nat.mod_eq_of_lt (Config.lt_two_pow_addrW (by simp))]

@[simp] theorem endCell_toNat : (endCell cfg).toNat = cfg.endPos := by
  rw [endCell, BitVec.toNat_ofNat, Nat.mod_eq_of_lt (Config.lt_two_pow_addrW (by simp))]

/-- A cell that lies `cnt` after `p`. -/
theorem offsetCell_toNat (p : Nat) (cnt : BitVec cntW) (h : p + cnt.toNat < 2 ^ cfg.addrW) :
    (BitVec.ofNat cfg.addrW p + cnt.setWidth cfg.addrW).toNat = p + cnt.toNat := by
  rw [BitVec.toNat_add, BitVec.toNat_ofNat, BitVec.toNat_setWidth, ← Nat.add_mod, Nat.mod_eq_of_lt h]

/-- The address of an identification byte. -/
theorem idCell_toNat {cnt : BitVec cntW} (h : cnt.toNat < cfg.idLen) : (idCell cfg cnt).toNat = 1 + cnt.toNat :=
  offsetCell_toNat 1 cnt (Config.lt_two_pow_addrW (by simp; omega))

/-- The address of a data byte. -/
theorem dataCell_toNat {cnt : BitVec cntW} (h : cnt.toNat < cfg.dataLen) :
    (dataCell cfg cnt).toNat = cfg.dataPos + cnt.toNat :=
  offsetCell_toNat _ cnt (Config.lt_two_pow_addrW (by simp; omega))

/-- At the defaults the address of an identification byte is at most 8. -/
theorem idCell_std_toNat (cnt : BitVec 3) : (idCell Config.std cnt).toNat = 1 + cnt.toNat :=
  offsetCell_toNat 1 cnt (by have := cnt.isLt; show 1 + cnt.toNat < 16; omega)

/-- At the defaults the address of a data byte is at most 15. -/
theorem dataCell_std_toNat (cnt : BitVec 3) : (dataCell Config.std cnt).toNat = 8 + cnt.toNat :=
  offsetCell_toNat 8 cnt (by have := cnt.isLt; show 8 + cnt.toNat < 16; omega)

/-! Storing. -/

/-- A store to a cell that exists. -/
theorem storeCell_eq {a : CellAddr cfg} (h : a.toNat < cfg.frameLen) (v : Byte) (s : State cntW) :
    storeCell cfg a v s = .next (s.setBuf (s.buf.write a.toNat v)) := if_pos h

/-- A store to a cell that does not exist. -/
theorem storeCell_fault {a : CellAddr cfg} (h : cfg.frameLen ≤ a.toNat) (v : Byte) (s : State cntW) :
    storeCell cfg a v s = .fault (.noSuchCell a.toNat) := if_neg (Nat.not_lt.mpr h)

/-- If a store answers a next state, its cell exists and the buffer alone changed. -/
theorem storeCell_next {a : CellAddr cfg} {v : Byte} {s t : State cntW} (h : storeCell cfg a v s = .next t) :
    a.toNat < cfg.frameLen ∧ t = s.setBuf (s.buf.write a.toNat v) := by
  unfold storeCell at h
  split at h
  · next hlt => exact ⟨hlt, (Host.Outcome.next.inj h).symm⟩
  · cases h

@[simp] theorem thenDo_next (s : State cntW) (f : State cntW → State cntW) : thenDo (.next s) f = .next (f s) := rfl
@[simp] theorem thenDo_fault (e : Fault) (f : State cntW → State cntW) : thenDo (.fault e) f = .fault e := rfl
@[simp] theorem thenDo_refused (e : Refusal) (f : State cntW → State cntW) :
    thenDo (.refused e) f = .refused e := rfl

/-- A collecting edge to a cell that exists. -/
theorem collect_eq {a : CellAddr cfg} (h : a.toNat < cfg.frameLen) (b : Byte) (st : StCode) (cnt : BitVec cntW)
    (s : State cntW) :
    collect cfg a b st cnt s =
      .next { s with st := st, cnt := cnt, buf := s.buf.write a.toNat b, fv := false, window := false } := by
  rw [collect, storeCell_eq h]
  rfl

/-- A rejecting edge. -/
theorem reject_eq (rs : List Cause) (b : Byte) (s : State cntW) :
    reject cfg rs b s =
      .next { s with
        st := St.waitHdr, cnt := 0#cntW, buf := s.buf.write cfg.endPos b, fv := false, window := false,
        discards := s.discards ++
          [{ edge := s.edge, reasons := rs, record := .endOfFrame (collectedBytes cfg s.buf) b }] } := by
  rw [reject, storeCell_eq (by simp), endCell_toNat]
  rfl

/-- A recovering edge. -/
theorem recover_eq (b : Byte) (s : State cntW) :
    recover b s =
      .next { s with
        st := St.waitHdr, cnt := 0#cntW, fv := false, window := false,
        discards := s.discards ++
          [{ edge := s.edge, reasons := [.recover], record := .beforeAndByte s.regs b }] } := rfl

/-! The checksum signal. -/

/-- `ck_ok` is the checksum test of the frame the buffer holds (R25, R131). -/
theorem ckOk_eq_validateChecksum (m : Memory) : ckOk cfg m = (Frame.ofBuf cfg m).validateChecksum cfg := rfl

/-- At the defaults the checksum test is that of R131. -/
theorem validateChecksum_std (f : Frame) :
    f.validateChecksum Config.std = (sum8 f.command f.intensity f.colorBalance == f.checksum) := by
  rw [Bool.eq_iff_iff, Frame.validateChecksum, beq_iff_eq, beq_iff_eq]
  exact BitVec.toNat_inj

/-- At the defaults `ck_ok` is the equality of R25. -/
theorem ckOk_std (m : Memory) :
    ckOk Config.std m = (sum8 (m.read 9) (m.read 10) (m.read 11) == m.read 12) := by
  rw [ckOk, validateChecksum_std]
  rfl

/-- Cell 12 alone decides what `ck_ok` is made to be. -/
theorem ckOk_withCkOk (c : Bool) (m : Memory) : ckOk Config.std (Memory.withCkOk c m) = c := by
  unfold Memory.withCkOk
  by_cases h : ckOk Config.std m = c
  · simp [h]
  · cases c
    · simp only [h, if_false, Bool.false_eq_true]
      simp [ckOk_std, Memory.read_write]
    · simp only [h, if_true]
      simp [ckOk_std, Memory.read_write]

/-! The edge and the run. -/

/-- Where the table is valid, the operation is the table's. -/
theorem selectInstr_table {x : EdgeInput} {s : State cntW} (h : cfg.tableValid = true) :
    selectInstr cfg x s = decode cfg (wordOf cfg x s) := if_pos h

/-- Where the table is not valid, the operation is the direct reading's. -/
theorem selectInstr_direct {x : EdgeInput} {s : State cntW} (h : cfg.tableValid = false) :
    selectInstr cfg x s = .ok (readDirect cfg x.rst x.inValid (ckOk cfg s.buf) s.st s.cnt x.inByte) :=
  if_neg (by simp [h])

/-- An edge performs the instruction it selects. -/
theorem edgeBy_of_select {run : Instr → State cntW → Result cntW} {x : EdgeInput} {s : State cntW} {i : Instr}
    (h : selectInstr cfg x s = .ok i) : edgeBy cfg run x s = run i s := by
  simp [edgeBy, h]

/-- At the defaults an edge performs the instruction its decode word decodes to. -/
theorem cycle_of_decode {x : EdgeInput} {s : State} {i : Instr}
    (h : decode Config.std (wordOf Config.std x s) = .ok i) : cycle x s = exec i s :=
  edgeBy_of_select h

/-- With an input placed, the next edge is the edge of that input. -/
theorem nextEdge_cons {edge : EdgeInput → State cntW → Result cntW} {s : State cntW} {x : EdgeInput}
    {rest : List EdgeInput} (h : s.inputs = x :: rest) : nextEdge edge s = edge x (s.advance rest) := by
  simp [nextEdge, h]

/-- With no input placed, the state freezes (R160). -/
theorem nextEdge_nil {edge : EdgeInput → State cntW → Result cntW} {s : State cntW} (h : s.inputs = []) :
    nextEdge edge s = .next s := by
  simp [nextEdge, h]

@[simp] theorem feed_nil (s : State) : s.feed [] = .next (s.present []) := rfl

@[simp] theorem feedAt_nil (s : State cfg.cntW) : State.feedAt cfg [] s = .next (s.present []) := rfl

/-- No operation touches the inputs still to come or the edges' count. -/
theorem perform_inputs_edge {i : Instr} {s t : State cntW} (h : perform cfg i s = .next t) :
    t.inputs = s.inputs ∧ t.edge = s.edge := by
  have hc : ∀ {a b st cnt} {u v : State cntW}, collect cfg a b st cnt u = .next v →
      v.inputs = u.inputs ∧ v.edge = u.edge := by
    intro a b st cnt u v h
    obtain ⟨-, rfl⟩ := storeCell_next h
    exact ⟨rfl, rfl⟩
  cases i <;> simp only [perform, doReset, doIdle, doHdrMatch, doHdrSkip, doRecoverId, doRecoverData, doRecoverSt5,
    doRecoverSt67, doIdAcc, doIdLast, doDataAcc, doDataLast, doCkCapture, doEndAccept, doEndRejectCk,
    doEndRejectTerm, reject_eq, recover_eq] at h
  case reset => cases h; constructor <;> simp <;> split <;> rfl
  case endAccept b => rw [collect_eq (by simp)] at h; cases h; exact ⟨rfl, rfl⟩
  all_goals first | exact hc h | (cases h; exact ⟨rfl, rfl⟩)

/-- No operation touches the inputs still to come or the edges' count. -/
theorem exec_inputs_edge {i : Instr} {s t : State} (h : exec i s = .next t) :
    t.inputs = s.inputs ∧ t.edge = s.edge := by
  refine perform_inputs_edge (cfg := Config.std) (i := i) (s := s) (t := t) ?_
  rw [← h]
  cases i <;> rfl

/-- A run over `x :: xs` is the edge of `x` and then the run over `xs`. -/
theorem feed_cons {x : EdgeInput} {xs : List EdgeInput} {s t : State}
    (h : cycle x (s.advance xs) = .next t) : s.feed (x :: xs) = t.feed xs := by
  have ht : t.inputs = xs := by
    unfold cycle edgeBy at h
    split at h
    · exact (exec_inputs_edge h).1
    · cases h
  have hs : step (s.present (x :: xs)) = .next t := h
  have hp : t.present xs = t := by subst ht; rfl
  have hr : s.feed (x :: xs) = _ := Host.Core.run.eq_2 Sys2Proof.core (s.present (x :: xs)) xs.length
  rw [hr, show Sys2Proof.core.step (s.present (x :: xs)) = .next t from hs, State.feed, hp]

/-- The same for a block built with the parameters `cfg`. -/
theorem feedAt_cons {x : EdgeInput} {xs : List EdgeInput} {s t : State cfg.cntW}
    (h : cycleAt cfg x (s.advance xs) = .next t) : State.feedAt cfg (x :: xs) s = State.feedAt cfg xs t := by
  have ht : t.inputs = xs := by
    unfold cycleAt edgeBy at h
    split at h
    · exact (perform_inputs_edge h).1
    · cases h
  have hs : stepAt cfg (s.present (x :: xs)) = .next t := h
  have hp : t.present xs = t := by subst ht; rfl
  have hr : State.feedAt cfg (x :: xs) s = _ := Host.Core.run.eq_2 (coreAt cfg) (s.present (x :: xs)) xs.length
  rw [hr, show (coreAt cfg).step (s.present (x :: xs)) = .next t from hs, State.feedAt, hp]

end Sys2Proof.Machine
end

