-- ==== Sys2Proof/Laws/PerInstr.lean ====
section
/-! SUPPORT. Statements made per instruction: the word an instruction encodes to fits the instruction's own row of
R69 and carries its operand in bits 7 to 0 (R66). -/

namespace Sys2Proof.Laws

/-- The instruction's word fits its own row, and its operand is the word's byte. -/
def EncodesInRow.Statement (i : Instr) : Prop :=
  ∀ cfg : Config, i.wf cfg = true →
    (i.op.row cfg).fits (encode cfg i) = true ∧ ∀ b, i.byte? = some b → (encode cfg i).byte = b

@[simp] theorem withByte_byte (w : Word) (b : Byte) : (Word.withByte w b).byte = b := by
  unfold Word.withByte Word.byte
  exact BitVec.extractLsb'_append_eq_right

@[simp] theorem withByte_withByte (w : Word) (a b : Byte) : (Word.withByte w a).withByte b = w.withByte b := by
  unfold Word.withByte
  rw [show (BitVec.extractLsb' 8 9 (BitVec.extractLsb' 8 9 w ++ a)) = BitVec.extractLsb' 8 9 w from
    BitVec.extractLsb'_append_eq_left]

theorem withByte_getLsbD (w : Word) (b : Byte) (i : Nat) :
    (w.withByte b).getLsbD i = if i < 8 then b.getLsbD i else w.getLsbD i := by
  unfold Word.withByte
  rw [BitVec.getLsbD_append]
  split
  · rfl
  · next h =>
    rw [BitVec.getLsbD_extractLsb', show 8 + (i - 8) = i by omega]
    by_cases hi : i - 8 < 9
    · simp [hi]
    · simp [hi, BitVec.getLsbD_of_ge w i (by omega)]

theorem byte_getLsbD (w : Word) (i : Nat) : w.byte.getLsbD i = (decide (i < 8) && w.getLsbD i) := by
  simp [Word.byte, BitVec.getLsbD_extractLsb']

@[simp] theorem withByte_self (w : Word) : w.withByte w.byte = w := by
  refine BitVec.eq_of_getLsbD_eq fun i _ => ?_
  rw [withByte_getLsbD, byte_getLsbD]
  split <;> simp [*]

/-- A mask splits a word's test into one on its high bits and one on its byte. -/
theorem withByte_and (w m : Word) (b : Byte) : w.withByte b &&& m = (w &&& m).withByte (b &&& m.byte) := by
  refine BitVec.eq_of_getLsbD_eq fun i _ => ?_
  rw [BitVec.getLsbD_and, withByte_getLsbD, withByte_getLsbD, BitVec.getLsbD_and, BitVec.getLsbD_and, byte_getLsbD]
  split <;> simp [*]

/-- A row whose mask leaves the byte open fits its match value with any byte. -/
theorem fits_of_open (v m : Word) (hb : m.byte = 0#8) (hm : (v &&& m).withByte 0#8 = v) (b : Byte) :
    (v.withByte b &&& m == v) = true := by
  rw [withByte_and, hb, BitVec.and_zero, hm]
  exact beq_self_eq_true _

/-- A row whose mask fixes the byte fits its match value with the byte it fixes. -/
theorem fits_of_fixed (v m : Word) (hb : m.byte = BitVec.allOnes 8) (hm : (v &&& m).withByte 0#8 = v.withByte 0#8)
    (b : Byte) : (v.withByte b &&& m == v.withByte b) = true := by
  have h : (v &&& m).withByte b = v.withByte b := by
    rw [← withByte_withByte (v &&& m) 0#8 b, hm, withByte_withByte]
  rw [withByte_and, hb, BitVec.and_allOnes, h]
  exact beq_self_eq_true _

theorem EncodesInRow.reset : EncodesInRow.Statement .reset :=
  fun _ _ => ⟨show ((0x10000#17 : Word) &&& 0x10000#17 == 0x10000#17) = true by decide, fun _ h => by cases h⟩

theorem EncodesInRow.idle : EncodesInRow.Statement .idle :=
  fun _ _ => ⟨show ((0x00000#17 : Word) &&& 0x18000#17 == 0x00000#17) = true by decide, fun _ h => by cases h⟩

theorem EncodesInRow.hdrMatch (b : Byte) : EncodesInRow.Statement (.hdrMatch b) := by
  intro cfg h
  obtain rfl : b = cfg.hdrMark := by simpa [Instr.wf] using h
  refine ⟨?_, fun c hc => by cases hc; exact withByte_byte _ _⟩
  rw [show encode cfg (.hdrMatch cfg.hdrMark) = (Op.row cfg .hdrMatch).matchBits from withByte_withByte _ _ _]
  exact fits_of_fixed 0x08000 0x1B8FF (by decide) (by decide) _

theorem EncodesInRow.hdrSkip (b : Byte) : EncodesInRow.Statement (.hdrSkip b) :=
  fun _ _ => ⟨fits_of_open 0x08000 0x1B800 (by decide) (by decide) b,
    fun c hc => by cases hc; exact withByte_byte _ _⟩

theorem EncodesInRow.recoverId (b : Byte) : EncodesInRow.Statement (.recoverId b) :=
  fun _ _ => ⟨fits_of_open 0x08F00 0x1BF00 (by decide) (by decide) b,
    fun c hc => by cases hc; exact withByte_byte _ _⟩

theorem EncodesInRow.idLast (b : Byte) : EncodesInRow.Statement (.idLast b) :=
  fun _ _ => ⟨fits_of_open 0x08E00 0x1BF00 (by decide) (by decide) b,
    fun c hc => by cases hc; exact withByte_byte _ _⟩

theorem EncodesInRow.idAcc (b : Byte) : EncodesInRow.Statement (.idAcc b) :=
  fun _ _ => ⟨fits_of_open 0x08800 0x1B800 (by decide) (by decide) b,
    fun c hc => by cases hc; exact withByte_byte _ _⟩

theorem EncodesInRow.recoverData (b : Byte) : EncodesInRow.Statement (.recoverData b) :=
  fun _ _ => ⟨fits_of_open 0x09400 0x1BC00 (by decide) (by decide) b,
    fun c hc => by cases hc; exact withByte_byte _ _⟩

theorem EncodesInRow.dataLast (b : Byte) : EncodesInRow.Statement (.dataLast b) :=
  fun _ _ => ⟨fits_of_open 0x09300 0x1BF00 (by decide) (by decide) b,
    fun c hc => by cases hc; exact withByte_byte _ _⟩

theorem EncodesInRow.dataAcc (b : Byte) : EncodesInRow.Statement (.dataAcc b) :=
  fun _ _ => ⟨fits_of_open 0x09000 0x1B800 (by decide) (by decide) b,
    fun c hc => by cases hc; exact withByte_byte _ _⟩

theorem EncodesInRow.ckCapture (b : Byte) : EncodesInRow.Statement (.ckCapture b) :=
  fun _ _ => ⟨fits_of_open 0x09800 0x1B800 (by decide) (by decide) b,
    fun c hc => by cases hc; exact withByte_byte _ _⟩

theorem EncodesInRow.endAccept (b : Byte) : EncodesInRow.Statement (.endAccept b) := by
  intro cfg h
  obtain rfl : b = cfg.endMark := by simpa [Instr.wf] using h
  refine ⟨?_, fun c hc => by cases hc; exact withByte_byte _ _⟩
  rw [show encode cfg (.endAccept cfg.endMark) = (Op.row cfg .endAccept).matchBits from withByte_withByte _ _ _]
  exact fits_of_fixed 0x0E000 0x1F8FF (by decide) (by decide) _

theorem EncodesInRow.endRejectCk (b : Byte) : EncodesInRow.Statement (.endRejectCk b) := by
  intro cfg h
  obtain rfl : b = cfg.endMark := by simpa [Instr.wf] using h
  refine ⟨?_, fun c hc => by cases hc; exact withByte_byte _ _⟩
  rw [show encode cfg (.endRejectCk cfg.endMark) = (Op.row cfg .endRejectCk).matchBits from withByte_withByte _ _ _]
  exact fits_of_fixed 0x0A000 0x1F8FF (by decide) (by decide) _

theorem EncodesInRow.endRejectTerm (b : Byte) : EncodesInRow.Statement (.endRejectTerm b) :=
  fun _ _ => ⟨fits_of_open 0x0A000 0x1B800 (by decide) (by decide) b,
    fun c hc => by cases hc; exact withByte_byte _ _⟩

theorem EncodesInRow.recoverSt5 (b : Byte) : EncodesInRow.Statement (.recoverSt5 b) :=
  fun _ _ => ⟨fits_of_open 0x0A800 0x1B800 (by decide) (by decide) b,
    fun c hc => by cases hc; exact withByte_byte _ _⟩

theorem EncodesInRow.recoverSt67 (b : Byte) : EncodesInRow.Statement (.recoverSt67 b) :=
  fun _ _ => ⟨fits_of_open 0x0B000 0x1B000 (by decide) (by decide) b,
    fun c hc => by cases hc; exact withByte_byte _ _⟩

end Sys2Proof.Laws
end

