-- ==== Sys2Proof/Tests/Slice0.lean ====
section
/-! SUPPORT. Tests with expected results from 95_test_vectors.md, and for every statement that has hypotheses a
concrete state and operands that meet them. -/

namespace Sys2Proof.Tests

open Sys2Proof Sys2Proof.Machine

/-! Helpers. -/

/-- The next state, where there is one. -/
def nextState {cntW : Nat} : Result cntW → Option (State cntW)
  | .next s => some s
  | .fault _ => none
  | .refused _ => none

/-- The fault, where there is one. -/
def faultOf : Result → Option Fault
  | .next _ => none
  | .fault e => some e
  | .refused _ => none

/-- The 14 bytes as a buffer. -/
def bufOf (f : Frame) : Memory := Memory.fill (fun p => f.bytes.getD p 0x00#8) 14

/-- Frame F1 of 95_test_vectors.md §2.4. -/
def f1 : Frame :=
  { header := 0x53, identification := [0xAA, 0xBB, 0x00, 0xCC, 0xDD, 0x00, 0xEE], data := [0x00, 0x01, 0x0A, 0x05],
    checksum := 0x10, endByte := 0x00 }

/-- Frame F4 of 95_test_vectors.md §2.4: ignorable, and valid. -/
def f4 : Frame :=
  { f1 with data := [0xA4, 0x01, 0x17, 0x17], checksum := 0x2F }

/-- A state in the middle of a run: these registers over the values of reset. -/
def mid (st : StCode) (cnt : Cnt) (buf : Memory) (fv : Bool) : State :=
  { State.reset with st := st, cnt := cnt, buf := buf, fv := fv }

/-- The state in the cycle after F1's last byte: emitted at edge 14, window open. -/
def shown : State :=
  { mid St.waitHdr 0 (bufOf f1) true with window := true, edge := 14, emitted := [{ edge := 14, frame := f1 }] }

/-- The four registers after one step with the input `x`. -/
def regsAfter (x : EdgeInput) (s : State) : Option Regs := (nextState (step (s.present [x]))).map State.regs

/-- The reasons of the discards recorded by one step with the input `x`. -/
def reasonsAfter (x : EdgeInput) (s : State) : Option (List (List Cause)) :=
  (nextState (step (s.present [x]))).map fun t => t.discards.map Discard.reasons

/-! Constants and widths (R5, R20, R32, R67). -/

theorem test_lengths :
    Config.std.frameLen = 14 ∧ Config.std.ckWidth = 8 ∧ Config.std.cntW = 3 ∧ Config.std.valid = true := by decide
theorem test_state_codes :
    [St.waitHdr, St.collectId, St.collectData, St.collectCk, St.collectEnd].map BitVec.toNat = [0, 1, 2, 3, 4] := by
  decide
theorem test_reset_registers : State.reset.regs = { st := 0, cnt := 0, buf := [], fv := false } := by decide

/-! Well-formedness: an ill-formed operand for each check. -/

theorem test_wf_hdrMatch : (Instr.hdrMatch 0x53).wf Config.std = true ∧ (Instr.hdrMatch 0x52).wf Config.std = false := by
  decide
theorem test_wf_hdrSkip : (Instr.hdrSkip 0x54).wf Config.std = true ∧ (Instr.hdrSkip 0x53).wf Config.std = false := by
  decide
theorem test_wf_endAccept :
    (Instr.endAccept 0x00).wf Config.std = true ∧ (Instr.endAccept 0x01).wf Config.std = false := by decide
theorem test_wf_endRejectCk :
    (Instr.endRejectCk 0x00).wf Config.std = true ∧ (Instr.endRejectCk 0x53).wf Config.std = false := by decide
theorem test_wf_endRejectTerm :
    (Instr.endRejectTerm 0x53).wf Config.std = true ∧ (Instr.endRejectTerm 0x00).wf Config.std = false := by decide

/-! Decoding: the words of 95_test_vectors.md §2.3, written out field by field as
`rst in_valid ck_ok st cnt b` (R66). -/

theorem test_decode_reset_V1 : decodeTableWord 24 0b1_1_1_010_010_01010011 = some .reset := by decide
theorem test_decode_reset_V3 : decodeTableWord 24 0x17D00 = some .reset := by decide
theorem test_decode_idle_V4 : decodeTableWord 24 0b0_0_1_001_011_01010011 = some .idle := by decide
theorem test_decode_idle_V5 : decodeTableWord 24 0x07000 = some .idle := by decide
theorem test_decode_hdrMatch_V6 : decodeTableWord 24 0b0_1_1_000_000_01010011 = some (.hdrMatch 0x53) := by decide
theorem test_decode_hdrMatch_V7 : decodeTableWord 24 0x0C553 = some (.hdrMatch 0x53) := by decide
theorem test_decode_hdrSkip_V9 : decodeTableWord 24 0b0_1_1_000_000_01010010 = some (.hdrSkip 0x52) := by decide
theorem test_decode_hdrSkip_V11 : decodeTableWord 24 0x0C0A4 = some (.hdrSkip 0xA4) := by decide
theorem test_decode_recoverId_V15 : decodeTableWord 24 0b0_1_1_001_111_01010011 = some (.recoverId 0x53) := by decide
theorem test_decode_idLast_V14 : decodeTableWord 24 0b0_1_1_001_110_11101110 = some (.idLast 0xEE) := by decide
theorem test_decode_idAcc_V12 : decodeTableWord 24 0b0_1_1_001_000_10101010 = some (.idAcc 0xAA) := by decide
theorem test_decode_idAcc_V13 : decodeTableWord 24 0x0CD53 = some (.idAcc 0x53) := by decide
theorem test_decode_recoverData_V19 : decodeTableWord 24 0b0_1_1_010_100_00000000 = some (.recoverData 0x00) := by
  decide
theorem test_decode_recoverData_V20 : decodeTableWord 24 0x0D700 = some (.recoverData 0x00) := by decide
theorem test_decode_dataLast_V18 : decodeTableWord 24 0b0_1_1_010_011_00000101 = some (.dataLast 0x05) := by decide
theorem test_decode_dataAcc_V16 : decodeTableWord 24 0b0_1_1_010_000_10100100 = some (.dataAcc 0xA4) := by decide
theorem test_decode_dataAcc_V17 : decodeTableWord 24 0x0D2FF = some (.dataAcc 0xFF) := by decide
theorem test_decode_ckCapture_V21 : decodeTableWord 24 0b0_1_0_011_000_00010000 = some (.ckCapture 0x10) := by decide
theorem test_decode_ckCapture_V22 : decodeTableWord 24 0x09B53 = some (.ckCapture 0x53) := by decide
theorem test_decode_endAccept_V23 : decodeTableWord 24 0b0_1_1_100_000_00000000 = some (.endAccept 0x00) := by decide
theorem test_decode_endAccept_V24 : decodeTableWord 24 0x0E200 = some (.endAccept 0x00) := by decide
theorem test_decode_endRejectCk_V25 : decodeTableWord 24 0b0_1_0_100_000_00000000 = some (.endRejectCk 0x00) := by
  decide
theorem test_decode_endRejectTerm_V26 : decodeTableWord 24 0b0_1_1_100_000_00000001 = some (.endRejectTerm 0x01) := by
  decide
theorem test_decode_endRejectTerm_V27 : decodeTableWord 24 0x0A053 = some (.endRejectTerm 0x53) := by decide
theorem test_decode_recoverSt5_V28 : decodeTableWord 24 0b0_1_1_101_000_01010011 = some (.recoverSt5 0x53) := by decide
theorem test_decode_recoverSt67_V29 : decodeTableWord 24 0b0_1_1_110_011_00000000 = some (.recoverSt67 0x00) := by
  decide
theorem test_decode_recoverSt67_V30 : decodeTableWord 24 0x0FFFF = some (.recoverSt67 0xFF) := by decide
/-- A bit above bit 16 is in no decode word. -/
theorem test_decode_tooWide : decodeTableWord 24 0x20000 = none := by decide
/-- The encoder writes V14's word but for `ck_ok`, which the row leaves open. -/
theorem test_encode_idLast : encode Config.std (.idLast 0xEE) = 0x08EEE := by decide

/-! One edge each: the rows V1 to V30 of 95_test_vectors.md §2.3. -/

theorem test_V1_reset :
    regsAfter { rst := true, inValid := true, inByte := 0x53 } (mid St.collectData 2 (bufOf f1) false) =
      some { st := St.waitHdr, cnt := 0, buf := [], fv := false } ∧
    reasonsAfter { rst := true, inValid := true, inByte := 0x53 } (mid St.collectData 2 (bufOf f1) false) =
      some [[.reset]] := by decide
theorem test_V2_reset :
    regsAfter resetEdge shown = some { st := St.waitHdr, cnt := 0, buf := [], fv := false } ∧
    reasonsAfter resetEdge shown = some [] := by decide
theorem test_V4_idle :
    regsAfter { rst := false, inValid := false, inByte := 0x53 } (mid St.collectId 3 (bufOf f1) true) =
      some { st := St.collectId, cnt := 3, buf := bufOf f1, fv := false } := by decide
/-- 95_test_vectors.md §2.7, `F1 . . .`: the window stays open over an idle edge while `frame_valid` falls. -/
theorem test_idle_keeps_window :
    (nextState (step (shown.present [idleEdge]))).map (fun t => (t.frameValid, t.window, t.buf)) =
      some (false, true, bufOf f1) := by decide
theorem test_V6_hdrMatch :
    regsAfter (byteEdge 0x53) shown = some { st := St.collectId, cnt := 0, buf := bufOf f1, fv := false } ∧
    (nextState (step (shown.present [byteEdge 0x53]))).map State.window = some false := by decide
theorem test_V7_hdrMatch_stale_cnt :
    regsAfter (byteEdge 0x53) (mid St.waitHdr 5 [] false) =
      some { st := St.collectId, cnt := 0, buf := [(0, 0x53)], fv := false } := by decide
theorem test_V9_hdrSkip :
    regsAfter (byteEdge 0x52) (mid St.waitHdr 0 (bufOf f1) false) =
      some { st := St.waitHdr, cnt := 0, buf := bufOf f1, fv := false } := by decide
/-- 95_test_vectors.md §2.7, `F1 ff`: a skipped byte closes the window. -/
theorem test_hdrSkip_closes_window :
    (nextState (step (shown.present [byteEdge 0xFF]))).map (fun t => (t.frameValid, t.window)) =
      some (false, false) := by decide
theorem test_V12_idAcc :
    regsAfter (byteEdge 0xAA) (mid St.collectId 0 [(0, 0x53)] false) =
      some { st := St.collectId, cnt := 1, buf := [(0, 0x53), (1, 0xAA)], fv := false } := by decide
theorem test_V13_idAcc_header_is_data :
    regsAfter (byteEdge 0x53) (mid St.collectId 5 [(0, 0x53)] false) =
      some { st := St.collectId, cnt := 6, buf := [(0, 0x53), (6, 0x53)], fv := false } := by decide
theorem test_V14_idLast :
    regsAfter (byteEdge 0xEE) (mid St.collectId 6 [(0, 0x53)] false) =
      some { st := St.collectData, cnt := 0, buf := [(0, 0x53), (7, 0xEE)], fv := false } := by decide
theorem test_V15_recoverId :
    regsAfter (byteEdge 0x53) (mid St.collectId 7 (bufOf f1) false) =
      some { st := St.waitHdr, cnt := 0, buf := bufOf f1, fv := false } ∧
    reasonsAfter (byteEdge 0x53) (mid St.collectId 7 (bufOf f1) false) = some [[.recover]] := by decide
theorem test_V16_dataAcc :
    regsAfter (byteEdge 0xA4) (mid St.collectData 0 (bufOf f1) false) =
      some { st := St.collectData, cnt := 1, buf := bufOf { f1 with data := [0xA4, 0x01, 0x0A, 0x05] }, fv := false } := by
  decide
theorem test_V17_dataAcc :
    regsAfter (byteEdge 0xFF) (mid St.collectData 2 (bufOf f1) false) =
      some { st := St.collectData, cnt := 3, buf := bufOf { f1 with data := [0x00, 0x01, 0xFF, 0x05] }, fv := false } := by
  decide
theorem test_V18_dataLast :
    regsAfter (byteEdge 0x05) (mid St.collectData 3 (bufOf { f1 with data := [0x00, 0x01, 0x0A, 0x77] }) false) =
      some { st := St.collectCk, cnt := 0, buf := bufOf f1, fv := false } := by decide
theorem test_V19_recoverData :
    regsAfter (byteEdge 0x00) (mid St.collectData 4 (bufOf f1) false) =
      some { st := St.waitHdr, cnt := 0, buf := bufOf f1, fv := false } := by decide
theorem test_V20_recoverData :
    reasonsAfter (byteEdge 0x00) (mid St.collectData 7 (bufOf f1) false) = some [[.recover]] := by decide
theorem test_V21_ckCapture :
    regsAfter (byteEdge 0x10) (mid St.collectCk 0 (bufOf { f1 with checksum := 0x00 }) false) =
      some { st := St.collectEnd, cnt := 0, buf := bufOf f1, fv := false } := by decide
theorem test_V21_ck_ok :
    ckOk Config.std (bufOf { f1 with checksum := 0x00 }) = false ∧ ckOk Config.std (bufOf f1) = true := by decide
theorem test_V23_endAccept :
    regsAfter (byteEdge 0x00) (mid St.collectEnd 0 (bufOf { f1 with endByte := 0x77 }) false) =
      some { st := St.waitHdr, cnt := 0, buf := bufOf f1, fv := true } := by decide
theorem test_V24_endAccept_emits :
    (nextState (step ((mid St.collectEnd 2 (bufOf { f1 with endByte := 0x77 }) false).present [byteEdge 0x00]))).map
      (fun t => (t.emitted, t.window)) = some ([{ edge := 1, frame := f1 }], true) := by decide
theorem test_V25_endRejectCk :
    regsAfter (byteEdge 0x00) (mid St.collectEnd 0 (bufOf { f1 with checksum := 0x11 }) false) =
      some { st := St.waitHdr, cnt := 0, buf := bufOf { f1 with checksum := 0x11 }, fv := false } ∧
    reasonsAfter (byteEdge 0x00) (mid St.collectEnd 0 (bufOf { f1 with checksum := 0x11 }) false) =
      some [[.ck]] := by decide
theorem test_V26_endRejectTerm :
    regsAfter (byteEdge 0x01) (mid St.collectEnd 0 (bufOf f1) false) =
      some { st := St.waitHdr, cnt := 0, buf := bufOf { f1 with endByte := 0x01 }, fv := false } ∧
    reasonsAfter (byteEdge 0x01) (mid St.collectEnd 0 (bufOf f1) false) = some [[.term]] := by decide
theorem test_V27_endRejectTerm_both :
    reasonsAfter (byteEdge 0x53) (mid St.collectEnd 0 (bufOf { f1 with checksum := 0x11 }) false) =
      some [[.ck, .term]] := by decide
theorem test_V28_recoverSt5 :
    regsAfter (byteEdge 0x53) (mid 5 0 (bufOf f1) false) =
      some { st := St.waitHdr, cnt := 0, buf := bufOf f1, fv := false } := by decide
theorem test_V29_recoverSt67 :
    regsAfter (byteEdge 0x00) (mid 6 3 (bufOf f1) false) =
      some { st := St.waitHdr, cnt := 0, buf := bufOf f1, fv := false } := by decide
theorem test_V30_recoverSt67 : reasonsAfter (byteEdge 0xFF) (mid 7 7 (bufOf f1) false) = some [[.recover]] := by decide
/-- No input placed: the state freezes (R160). -/
theorem test_no_input_freezes : nextState (step shown) = some shown := by decide
/-- The placed word is the one run (V14). -/
theorem test_fetch_word :
    (nextState (step (State.reset.withFetchWord 24 0x0CEEE))).map State.regs =
      some { st := St.collectData, cnt := 0, buf := [(7, 0xEE)], fv := false } := by decide

/-! Checksum, views, ports (95_test_vectors.md §2.2, §2.4, §2.5). -/

theorem test_sum8 : sum8 0x01 0x0A 0x05 = 0x10 ∧ sum8 0xE0 0xFF 0xFF = 0xDE ∧ sum8 0x80 0x80 0x00 = 0x00 ∧
    sum8 0xFF 0xFF 0xFF = 0xFD ∧ sum8 0x53 0x53 0x53 = 0xF9 ∧ sum8 0x07 0xFF 0x00 = 0x06 := by decide
theorem test_frame_out_F1 : f1.pack Config.std = 0x0010050A0100EE00DDCC00BBAA53 := by decide
theorem test_frame_out_F4 :
    f4.pack Config.std = 0x002F171701A4EE00DDCC00BBAA53 ∧ f4.canIgnoreMagic Config.std = true := by decide
theorem test_frame_out_window : shown.frameOut Config.std = 0x0010050A0100EE00DDCC00BBAA53 := by decide
theorem test_decodeCommand :
    [0x00#8, 0x01#8, 0x02#8, 0x03#8, 0x0F#8, 0x10#8, 0x11#8, 0x53#8, 0xA4#8, 0xDF#8, 0xE0#8, 0xE1#8, 0xFF#8].map
      decodeCommand =
    [.unknown, .on, .automatic, .unknown, .unknown, .off, .unknown, .unknown, .unknown, .unknown, .startup, .unknown,
      .unknown] := by decide
theorem test_bytes_needed :
    (List.range 8).map (fun c => bytesNeeded Config.std St.collectId (BitVec.ofNat 3 c)) =
      [13, 12, 11, 10, 9, 8, 7, 1] ∧
    (List.range 8).map (fun c => bytesNeeded Config.std St.collectData (BitVec.ofNat 3 c)) =
      [6, 5, 4, 3, 1, 1, 1, 1] := by decide

/-! Witnesses: for each statement that has hypotheses, a state and operands that meet them together, at the bounds of
each clause. -/

/-- F1 with its last byte still to come. -/
def beforeEnd : State := mid St.collectEnd 0 (bufOf { f1 with endByte := 0x77 }) false

/-- F1's bytes, the checksum wrong. -/
def beforeEndBad : State := mid St.collectEnd 0 (bufOf { f1 with checksum := 0x11 }) false

/-- A run that goes on: the window of F1 is open, a discard lies behind, and the next frame's header comes next. -/
def running : State :=
  { shown with
    edge := 30, emitted := [{ edge := 14, frame := f4 }, { edge := 30, frame := f1 }],
    discards := [{ edge := 16, reasons := [.recover], record := .beforeAndByte (mid 6 0 [] false).regs 0x53 }],
    inputs := [byteEdge 0x53] }

/-- The middle of F1's data, F4 emitted before. -/
def inData : State :=
  { mid St.collectData 3 (bufOf f1) false with edge := 25, emitted := [{ edge := 14, frame := f4 }], inputs := [idleEdge] }

/-- The default parameters, and others with the default lengths. -/
theorem witness_TableDecodeIsDirectReading :
    Config.std.tableValid = true ∧
    { Config.std with hdrMark := 0x7E, endMark := 0x0D, ignoreMagic := 0x01, ckWidth := 4 : Config }.tableValid = true :=
  by decide
theorem witness_DecodeOfEncodeIsTheInstruction :
    (Instr.endRejectTerm 0xFF).wf Config.std = true ∧ (Instr.hdrSkip 0x00).wf Config.std = true ∧
    (Instr.hdrMatch 0x53).wf Config.std = true ∧ Instr.reset.wf Config.std = true := by decide
theorem witness_DecodedInstructionIsWellFormed : decode Config.std 0x0CEEE = .ok (.idLast 0xEE) := rfl
theorem witness_StepRunsTheDecodedInstruction :
    running.inputs = byteEdge 0x53 :: [] ∧
    decode Config.std (wordOf Config.std (byteEdge 0x53) running) = .ok (.hdrMatch 0x53) ∧
    shown.inputs = [] := ⟨rfl, rfl, rfl⟩
theorem witness_FetchedWordIsTheOneRun : 0x1FFFF < 2 ^ 17 ∧ 0x1FFFF < 2 ^ 24 := by decide
theorem witness_NoInputFaultsHangsOrStops : running.inputs = byteEdge 0x53 :: [] := rfl
theorem witness_ResetEdgeResult :
    resetEdge.rst = true ∧ (mid St.collectData 2 (bufOf f1) false).st ≠ St.waitHdr ∧ shown.st = St.waitHdr := by decide
theorem witness_IdleEdgeResult : idleEdge.rst = false ∧ idleEdge.inValid = false := by decide
theorem witness_HdrMatchResult : shown.st = St.waitHdr := by decide
theorem witness_HdrSkipResult : shown.st = St.waitHdr ∧ (0x52 : Byte) ≠ 0x53 ∧ (0xFF : Byte) ≠ 0x53 := by decide
theorem witness_IdAccResult :
    (mid St.collectId 0 [] false).st = St.collectId ∧ (mid St.collectId 0 [] false).cnt.toNat ≤ 5 ∧
    (mid St.collectId 5 [] false).st = St.collectId ∧ (mid St.collectId 5 [] false).cnt.toNat ≤ 5 := by decide
theorem witness_IdLastResult :
    (mid St.collectId 6 [] false).st = St.collectId ∧ (mid St.collectId 6 [] false).cnt.toNat = 6 := by decide
theorem witness_DataAccResult :
    (mid St.collectData 0 [] false).st = St.collectData ∧ (mid St.collectData 0 [] false).cnt.toNat ≤ 2 ∧
    (mid St.collectData 2 [] false).st = St.collectData ∧ (mid St.collectData 2 [] false).cnt.toNat ≤ 2 := by decide
theorem witness_DataLastResult : inData.st = St.collectData ∧ inData.cnt.toNat = 3 := by decide
theorem witness_CkCaptureResult : (mid St.collectCk 3 (bufOf f1) false).st = St.collectCk := by decide
theorem witness_EndAcceptResult :
    beforeEnd.st = St.collectEnd ∧ ckOk Config.std beforeEnd.buf = true ∧ SequencingInv Config.std beforeEnd :=
  ⟨rfl, by decide, .inr (.inr (.inr (.inr ⟨rfl, rfl, rfl⟩)))⟩
theorem witness_EndRejectCkResult :
    beforeEndBad.st = St.collectEnd ∧ ckOk Config.std beforeEndBad.buf = false := by decide
/-- With the checksum right and with it wrong. -/
theorem witness_EndRejectTermResult :
    beforeEnd.st = St.collectEnd ∧ ckOk Config.std beforeEnd.buf = true ∧ beforeEndBad.st = St.collectEnd ∧
    ckOk Config.std beforeEndBad.buf = false ∧ (0x53 : Byte) ≠ 0x00 ∧ (0x01 : Byte) ≠ 0x00 := by decide
theorem witness_RecoverResult :
    ((mid St.collectId 7 [] false).st = St.collectId ∧ (mid St.collectId 7 [] false).cnt.toNat = 7) ∧
    ((mid St.collectData 4 [] false).st = St.collectData ∧ 4 ≤ (mid St.collectData 4 [] false).cnt.toNat) ∧
    ((mid St.collectData 7 [] false).st = St.collectData ∧ 4 ≤ (mid St.collectData 7 [] false).cnt.toNat) ∧
    (mid 5 0 [] false).st = 0b101#3 ∧ (mid 6 3 [] false).st = 0b110#3 ∧ (mid 7 7 [] false).st = 0b111#3 ∧
    Instr.recoverId 0x53 ∈
      [Instr.recoverId 0x53, Instr.recoverData 0x53, Instr.recoverSt5 0x53, Instr.recoverSt67 0x53] ∧
    illegal Config.std (mid 6 0 [] false).st (mid 6 0 [] false).cnt = true := by decide
/-- The store of each operation at the two values of `cnt` that point past the buffer. -/
theorem witness_StoreToMissingCellStops :
    6 ≤ (mid St.collectData 6 [] false).cnt.toNat ∧ 6 ≤ (mid St.collectData 7 [] false).cnt.toNat ∧
    faultOf (exec (.dataAcc 0x53) (mid St.collectData 6 [] false)) = some (.noSuchCell 14) ∧
    faultOf (exec (.dataLast 0x00) (mid St.collectData 7 [] false)) = some (.noSuchCell 15) := by decide
/-- An edge without reset; and legal states at the positions 1, 7, 8, 12 and 13. -/
theorem witness_ConsumedByteGoesToItsPosition :
    (byteEdge 0x53).rst = false ∧
    [(St.collectId, 0#3), (St.collectId, 6#3), (St.collectData, 0#3), (St.collectCk, 0#3), (St.collectEnd, 0#3)].all
      (fun c => decide (c.1 ≠ St.waitHdr) && !illegal Config.std c.1 c.2) = true ∧
    [(St.collectId, 0#3), (St.collectId, 6#3), (St.collectData, 0#3), (St.collectCk, 0#3), (St.collectEnd, 0#3)].map
      (fun c => position Config.std c.1 c.2) = [1, 7, 8, 12, 13] := by decide
theorem witness_SumOfThreeBytesModulo256 :
    f1.checksum = { f1 with data := [0x00, 0x05, 0x0A, 0x01] : Frame }.checksum ∧
    [f1.command, f1.intensity, f1.colorBalance].Perm [0x05, 0x0A, 0x01] := by decide
theorem witness_FrameOutShowsTheBuffer : running.window = true := by decide
theorem witness_WindowOpensAndCloses : idleEdge.idles = true ∧ shown.window = true := by decide
theorem witness_BufferStaysCanonical : running.buf.wf Config.std = true ∧ inData.buf.wf Config.std = true := by decide
theorem witness_SequencingInvariantIsKept :
    Config.std.valid = true ∧
    SequencingInv Config.std running ∧ SequencingInv Config.std inData ∧ SequencingInv Config.std beforeEnd :=
  ⟨by decide, .inl ⟨rfl, rfl⟩, .inr (.inr (.inl ⟨rfl, by decide, rfl⟩)), .inr (.inr (.inr (.inr ⟨rfl, rfl, rfl⟩)))⟩
theorem witness_EmittedFramesAreWellFormed :
    SequencingInv Config.std beforeEnd ∧ EmittedAccepted Config.std beforeEnd ∧ SequencingInv Config.std running ∧
    EmittedAccepted Config.std running :=
  ⟨.inr (.inr (.inr (.inr ⟨rfl, rfl, rfl⟩))), by unfold EmittedAccepted; decide, .inl ⟨rfl, rfl⟩,
    by unfold EmittedAccepted; decide⟩
theorem witness_OpenWindowShowsTheLastFrame :
    WindowInv Config.std running ∧ running.window = true ∧ running.fv = true :=
  ⟨⟨fun _ => ⟨_, rfl, rfl⟩, fun _ => ⟨rfl, _, rfl, rfl⟩⟩, rfl, rfl⟩
theorem witness_EmissionsLieFourteenEdgesApart : SpacingInv Config.std running ∧ SpacingInv Config.std inData := by
  unfold SpacingInv; decide
theorem witness_DiscardEventsAreWellFormed : DiscardsInv running := by unfold DiscardsInv; decide
/-- A frame that is accepted and one that is not. -/
theorem witness_FourteenBytesAcceptedIff :
    running.st = St.waitHdr ∧ f1.sized Config.std = true ∧
    { f1 with checksum := 0x11 : Frame }.sized Config.std = true := by decide
theorem witness_RoundTripEmitsTheFrame :
    running.st = St.waitHdr ∧ f4.sized Config.std = true ∧ f4.header = 0x53 ∧
    f4.checksum = sum8 f4.command f4.intensity f4.colorBalance ∧
    f4.endByte = 0x00 := by decide
/-- Two good frames; and a broken one, F1C of 95_test_vectors.md §2.4, before a good one. -/
theorem witness_BackToBackFramesAreBothEmitted :
    running.st = St.waitHdr ∧ f1.accepted Config.std = true ∧ f4.accepted Config.std = true ∧
    { f1 with checksum := 0x11 : Frame }.sized Config.std = true ∧ { f1 with checksum := 0x11 : Frame }.header = 0x53 ∧
    { f1 with checksum := 0x11 : Frame }.wellFormed Config.std = false := by decide
theorem witness_ResynchronisesAfterGarbage :
    State.reset.st = St.waitHdr ∧ f1.accepted Config.std = true ∧ ∀ b ∈ [0x00#8, 0xFF#8, 0x12#8, 0xA4#8], b ≠ 0x53#8 := by
  decide
/-- The longest recovery, 13 bytes; none, and one; 13 bytes without a header. -/
theorem witness_RecoversWithinThirteenBytes :
    (List.replicate 13 (0x53 : Byte)).length =
      bytesNeeded Config.std (mid St.collectId 0 [] false).st (mid St.collectId 0 [] false).cnt ∧
    ([] : List Byte).length = bytesNeeded Config.std shown.st shown.cnt ∧
    [0x53#8].length = bytesNeeded Config.std (mid 6 0 [] false).st (mid 6 0 [] false).cnt ∧
    shown.st = St.waitHdr ∧ (List.replicate 13 (0xFF : Byte)).length = 13 ∧
    ∀ b ∈ List.replicate 13 (0xFF : Byte), b ≠ 0x53 := by decide
theorem witness_NoMidFrameResynchronisation :
    inData.st ≠ St.waitHdr ∧ illegal Config.std inData.st inData.cnt = false ∧ beforeEnd.st ≠ St.waitHdr ∧
    illegal Config.std beforeEnd.st beforeEnd.cnt = false ∧ (mid 7 7 [] false).st ≠ St.waitHdr := by decide
theorem witness_EmptyStreamEmitsNothing :
    (∀ x ∈ [idleEdge, idleEdge], x.idles = true) ∧ [resetEdge] ≠ [] ∧ ∀ x ∈ [resetEdge], x.rst = true := by decide
/-- The header alone; and 13 bytes with an idle edge among them. -/
theorem witness_FrameInProgressHoldsItsBytes :
    State.reset.st = St.waitHdr ∧ (∀ x ∈ byteEdge 0x53 :: idleEdge :: byteStream (f1.bytes.drop 1 |>.take 12), x.rst = false) ∧
    consumedBytes [byteEdge 0x53] = 0x53#8 :: [] ∧ ([] : List Byte).length ≤ 12 ∧
    consumedBytes (byteEdge 0x53 :: idleEdge :: byteStream (f1.bytes.drop 1 |>.take 12)) =
      0x53#8 :: (f1.bytes.drop 1 |>.take 12) ∧
    (f1.bytes.drop 1 |>.take 12).length ≤ 12 := by decide
theorem witness_ExactlyOneEndingIsAccepted :
    State.reset.st = St.waitHdr ∧ f1.sized Config.std = true ∧ f1.header = 0x53 := by decide
theorem witness_ConsumerChecksumTestIsDead :
    SequencingInv Config.std running ∧ EmittedAccepted Config.std running :=
  ⟨.inl ⟨rfl, rfl⟩, by unfold EmittedAccepted; decide⟩
/-- F1 with another identification, magic byte and end byte. -/
def otherEnd : State :=
  mid St.collectEnd 0
    (bufOf { f1 with identification := [0x01, 0xBB, 0x00, 0xCC, 0xDD, 0x00, 0xEE], data := [0xA4, 0x01, 0x0A, 0x05] })
    false

/-- Two states that differ in the identification, the magic byte and the end byte. -/
theorem witness_AcceptanceReadsOnlyFourCells :
    beforeEnd.st = otherEnd.st ∧ beforeEnd.cnt = otherEnd.cnt ∧
    ∀ p, 9 ≤ p → p ≤ 12 → beforeEnd.buf.read p = otherEnd.buf.read p := by
  refine ⟨rfl, rfl, fun p h h' => ?_⟩
  interval_cases p <;> rfl

/-! A block of other parameters (R5): 5 identification bytes, 5 data bytes, a 7-bit checksum, a 4-bit
counter; the frame is 13 bytes long, with its data at 6 to 10. -/

/-- The parameters. -/
def other : Config :=
  { hdrMark := 0x7E, idLen := 5, dataLen := 5, endMark := 0x0D, ignoreMagic := 0xA5, ckWidth := 7, cntW := 4 }

/-- A frame of such a block: 0x01 + 0x7F + 0x05 is 0x05 modulo 2 to the power 7. -/
def otherFrame : Frame :=
  { header := 0x7E, identification := [1, 2, 3, 4, 5], data := [0xA5, 0x01, 0x7F, 0x05, 0xEE],
    checksum := 0x05, endByte := 0x0D }

theorem test_other_lengths : other.frameLen = 13 ∧ other.valid = true ∧ other.tableValid = false := by decide
theorem test_other_checksum :
    otherFrame.validateChecksum other = true ∧ otherFrame.accepted other = true ∧
    { otherFrame with checksum := 0x85 : Frame }.validateChecksum other = false := by decide
/-- The fifth identification byte is the last there, and the fifth data byte. -/
theorem test_other_selects :
    readDirect other false true false St.collectId 4#4 0x7E = .idLast 0x7E ∧
    readDirect other false true false St.collectId 5#4 0x7E = .recoverId 0x7E ∧
    readDirect other false true false St.collectData 3#4 0x7E = .dataAcc 0x7E ∧
    readDirect other false true false St.collectData 4#4 0x7E = .dataLast 0x7E ∧
    readDirect other false true false St.collectData 5#4 0x7E = .recoverData 0x7E := by decide
/-- The first data byte goes to cell 6 there. -/
theorem test_other_dataAcc :
    nextState (cycleAt other (byteEdge 0xA5) { State.resetAt other.cntW with st := St.collectData }) =
      some { State.resetAt other.cntW with st := St.collectData, cnt := 1#4, buf := [(6, 0xA5)] } := by decide
theorem witness_FrameOfAnyLengthsAcceptedIff :
    Config.std.valid = true ∧ f4.sized Config.std = true ∧ f4.accepted Config.std = true ∧ shown.st = St.waitHdr ∧
    other.valid = true ∧ otherFrame.sized other = true ∧ otherFrame.accepted other = true ∧
    (State.resetAt other.cntW).st = St.waitHdr := by decide
/-- The longest recovery of each block, and none. -/
theorem witness_RecoveryBoundForAnyLengths :
    Config.std.valid = true ∧ (List.replicate 13 (0x53 : Byte)).length = bytesNeeded Config.std St.collectId 0#3 ∧
    other.valid = true ∧ (List.replicate 12 (0x7E : Byte)).length = bytesNeeded other St.collectId 0#4 ∧
    ([] : List Byte).length = bytesNeeded other St.waitHdr 0#4 := by decide

end Sys2Proof.Tests
end

section
/-! Proofs: the decode word field by field (R66), and the priority decode as the direct reading (R68, R69). -/

namespace Sys2Proof

/-! The fields of the decode word. -/

section Fields

variable (r v c : Bool) (st : StCode) (cnt : Cnt) (b : Byte)

theorem Word.getLsbD_ofFields (i : Nat) :
    (Word.ofFields r v c st cnt b).getLsbD i =
      if i < 8 then b.getLsbD i else if i < 11 then cnt.getLsbD (i - 8) else if i < 14 then st.getLsbD (i - 11)
      else if i = 14 then c else if i = 15 then v else decide (i = 16) && r := by
  unfold Word.ofFields
  rw [BitVec.getLsbD_append, BitVec.getLsbD_append, BitVec.getLsbD_append, BitVec.getLsbD_append,
    BitVec.getLsbD_append]
  simp only [Nat.sub_sub, Nat.reduceAdd, BitVec.getLsbD_ofBool]
  by_cases h : i = 16
  · subst h; rfl
  · grind

@[simp] theorem Word.rst_ofFields : (Word.ofFields r v c st cnt b).rst = r :=
  Word.getLsbD_ofFields r v c st cnt b _

@[simp] theorem Word.inValid_ofFields : (Word.ofFields r v c st cnt b).inValid = v :=
  Word.getLsbD_ofFields r v c st cnt b _

@[simp] theorem Word.ckOk_ofFields : (Word.ofFields r v c st cnt b).ckOk = c :=
  Word.getLsbD_ofFields r v c st cnt b _

@[simp] theorem Word.st_ofFields : (Word.ofFields r v c st cnt b).st = st := by
  refine BitVec.eq_of_getLsbD_eq fun i hi => ?_
  rw [Word.st, BitVec.getLsbD_extractLsb', Word.getLsbD_ofFields, if_neg (by omega), if_neg (by omega),
    if_pos (by omega), Nat.add_sub_cancel_left, decide_eq_true hi, Bool.true_and]

@[simp] theorem Word.cnt_ofFields : (Word.ofFields r v c st cnt b).cnt = cnt := by
  refine BitVec.eq_of_getLsbD_eq fun i hi => ?_
  rw [Word.cnt, BitVec.getLsbD_extractLsb', Word.getLsbD_ofFields, if_neg (by omega), if_pos (by omega),
    Nat.add_sub_cancel_left, decide_eq_true hi, Bool.true_and]

@[simp] theorem Word.byte_ofFields : (Word.ofFields r v c st cnt b).byte = b :=
  BitVec.extractLsb'_append_eq_right

end Fields

/-- A decode word is made of its six fields (R66). -/
@[simp] theorem Word.ofFields_fields (w : Word) :
    Word.ofFields w.rst w.inValid w.ckOk w.st w.cnt w.byte = w := by
  refine BitVec.eq_of_getLsbD_eq fun i hi => ?_
  rw [Word.getLsbD_ofFields, Laws.byte_getLsbD, Word.cnt, Word.st, BitVec.getLsbD_extractLsb',
    BitVec.getLsbD_extractLsb', Word.ckOk, Word.inValid, Word.rst]
  grind

section TwoWords

variable {r v c r' v' c' : Bool} {st st' : StCode} {cnt cnt' : Cnt} {b b' : Byte}

theorem Word.ofFields_inj :
    Word.ofFields r v c st cnt b = Word.ofFields r' v' c' st' cnt' b' ↔
      r = r' ∧ v = v' ∧ c = c' ∧ st = st' ∧ cnt = cnt' ∧ b = b' := by
  refine ⟨fun h => ⟨?_, ?_, ?_, ?_, ?_, ?_⟩, ?_⟩
  · simpa using congrArg Word.rst h
  · simpa using congrArg Word.inValid h
  · simpa using congrArg Word.ckOk h
  · simpa using congrArg Word.st h
  · simpa using congrArg Word.cnt h
  · simpa using congrArg Word.byte h
  · rintro ⟨rfl, rfl, rfl, rfl, rfl, rfl⟩; rfl

theorem Word.ofFields_and :
    Word.ofFields r v c st cnt b &&& Word.ofFields r' v' c' st' cnt' b' =
      Word.ofFields (r && r') (v && v') (c && c') (st &&& st') (cnt &&& cnt') (b &&& b') := by
  refine BitVec.eq_of_getLsbD_eq fun i hi => ?_
  simp only [BitVec.getLsbD_and, Word.getLsbD_ofFields]
  grind

end TwoWords

theorem Word.withByte_eq_ofFields (w : Word) (b : Byte) :
    w.withByte b = Word.ofFields w.rst w.inValid w.ckOk w.st w.cnt b := by
  refine BitVec.eq_of_getLsbD_eq fun i hi => ?_
  conv_lhs => rw [← Word.ofFields_fields w]
  rw [Laws.withByte_getLsbD, Word.getLsbD_ofFields, Word.getLsbD_ofFields]
  split <;> rfl

/-! What each row of the table asks of the fields. -/

/-- A row fits a word when each field, masked, is the row's (R68). -/
theorem OpRow.fits_ofFields (row : OpRow) (r v c : Bool) (st : StCode) (cnt : Cnt) (b : Byte) :
    row.fits (Word.ofFields r v c st cnt b) = true ↔
      (r && row.mask.rst) = row.matchBits.rst ∧ (v && row.mask.inValid) = row.matchBits.inValid ∧
      (c && row.mask.ckOk) = row.matchBits.ckOk ∧ st &&& row.mask.st = row.matchBits.st ∧
      cnt &&& row.mask.cnt = row.matchBits.cnt ∧ b &&& row.mask.byte = row.matchBits.byte := by
  rw [OpRow.fits, beq_iff_eq, ← Word.ofFields_inj, ← Word.ofFields_and, Word.ofFields_fields, Word.ofFields_fields]

/-- The condition of an operation's row on the fields of a decode word, without the rows before it (R69). -/
def Op.selects (cfg : Config) (op : Op) (rst inValid ckOk : Bool) (st : StCode) (cnt : Cnt) (b : Byte) : Bool :=
  match op with
  | .reset => rst
  | .idle => !rst && !inValid
  | .hdrMatch => !rst && inValid && st == St.waitHdr && b == cfg.hdrMark
  | .hdrSkip => !rst && inValid && st == St.waitHdr
  | .recoverId => !rst && inValid && st == St.collectId && decide (7 ≤ cnt.toNat)
  | .idLast => !rst && inValid && st == St.collectId && decide (cnt.toNat = 6)
  | .idAcc => !rst && inValid && st == St.collectId
  | .recoverData => !rst && inValid && st == St.collectData && decide (4 ≤ cnt.toNat)
  | .dataLast => !rst && inValid && st == St.collectData && decide (cnt.toNat = 3)
  | .dataAcc => !rst && inValid && st == St.collectData
  | .ckCapture => !rst && inValid && st == St.collectCk
  | .endAccept => !rst && inValid && ckOk && st == St.collectEnd && b == cfg.endMark
  | .endRejectCk => !rst && inValid && !ckOk && st == St.collectEnd && b == cfg.endMark
  | .endRejectTerm => !rst && inValid && st == St.collectEnd
  | .recoverSt5 => !rst && inValid && st == 5#3
  | .recoverSt67 => !rst && inValid && decide (6 ≤ st.toNat)

/-! The masks of the table, read as conditions on a 3-bit number. -/

theorem and_four_eq_iff (x : BitVec 3) : x &&& 4#3 = 4#3 ↔ 4 ≤ x.toNat := by revert x; decide
theorem and_six_eq_iff (x : BitVec 3) : x &&& 6#3 = 6#3 ↔ 6 ≤ x.toNat := by revert x; decide
theorem eq_seven_iff (x : BitVec 3) : x = 7#3 ↔ 7 ≤ x.toNat := by revert x; decide
theorem eq_six_iff (x : BitVec 3) : x = 6#3 ↔ x.toNat = 6 := BitVec.toNat_inj.symm
theorem eq_three_iff (x : BitVec 3) : x = 3#3 ↔ x.toNat = 3 := BitVec.toNat_inj.symm
theorem and_seven (x : BitVec 3) : x &&& 7#3 = x := BitVec.and_allOnes
theorem and_255 (x : Byte) : x &&& 255#8 = x := BitVec.and_allOnes

/-- Each row of the table fits exactly the words of its column "selects" (R69). -/
theorem Op.fits_row (cfg : Config) (op : Op) (r v c : Bool) (st : StCode) (cnt : Cnt) (b : Byte) :
    (op.row cfg).fits (Word.ofFields r v c st cnt b) = op.selects cfg r v c st cnt b := by
  rw [Bool.eq_iff_iff, OpRow.fits_ofFields]
  cases op <;>
    simp only [Op.row, Word.withByte_eq_ofFields, Word.rst_ofFields, Word.inValid_ofFields, Word.ckOk_ofFields,
      Word.st_ofFields, Word.cnt_ofFields, Word.byte_ofFields] <;>
    simp [Op.selects, Word.rst, Word.inValid, Word.ckOk, Word.st, Word.cnt, Word.byte, and_assoc,
      and_four_eq_iff, and_six_eq_iff, eq_seven_iff, ← eq_six_iff, ← eq_three_iff, and_seven, and_255]

/-! The priority decode. -/

/-- The operations in the order of their rows' priorities (R68, R69). -/
def Op.all : List Op :=
  [.reset, .idle, .hdrMatch, .hdrSkip, .recoverId, .idLast, .idAcc, .recoverData, .dataLast, .dataAcc, .ckCapture,
   .endAccept, .endRejectCk, .endRejectTerm, .recoverSt5, .recoverSt67]

theorem opTable_eq_map (cfg : Config) : opTable cfg = Op.all.map (Op.row cfg) := rfl

@[simp] theorem Op.op_row (cfg : Config) (op : Op) : (op.row cfg).op = op := by cases op <;> rfl

/-- The decode takes the first operation whose row's condition holds. -/
theorem decodeOp_ofFields (cfg : Config) (r v c : Bool) (st : StCode) (cnt : Cnt) (b : Byte) :
    decodeOp cfg (Word.ofFields r v c st cnt b) = Op.all.find? fun op => op.selects cfg r v c st cnt b := by
  simp [decodeOp, opTable_eq_map, List.find?_map, Function.comp_def, Op.fits_row]

/-! The direct reading, case by case of the state on a consuming edge (R94 to R104). -/

section Reading

variable {cfg : Config} {n : Nat} {cnt : BitVec n} {c : Bool} {b : Byte}

@[simp] theorem readDirect_waitHdr :
    readDirect cfg false true c St.waitHdr cnt b = if b = cfg.hdrMark then .hdrMatch b else .hdrSkip b := rfl

@[simp] theorem readDirect_collectId :
    readDirect cfg false true c St.collectId cnt b =
      if cfg.idLen ≤ cnt.toNat then .recoverId b
      else if cnt.toNat = cfg.idLen - 1 then .idLast b else .idAcc b := rfl

@[simp] theorem readDirect_collectData :
    readDirect cfg false true c St.collectData cnt b =
      if cfg.dataLen ≤ cnt.toNat then .recoverData b
      else if cnt.toNat = cfg.dataLen - 1 then .dataLast b else .dataAcc b := rfl

@[simp] theorem readDirect_collectCk : readDirect cfg false true c St.collectCk cnt b = .ckCapture b := rfl

@[simp] theorem readDirect_collectEnd :
    readDirect cfg false true c St.collectEnd cnt b =
      if b = cfg.endMark then (if c then .endAccept b else .endRejectCk b) else .endRejectTerm b := rfl

@[simp] theorem readDirect_st5 : readDirect cfg false true c 5#3 cnt b = .recoverSt5 b := rfl
@[simp] theorem readDirect_st6 : readDirect cfg false true c 6#3 cnt b = .recoverSt67 b := rfl
@[simp] theorem readDirect_st7 : readDirect cfg false true c 7#3 cnt b = .recoverSt67 b := rfl

end Reading

/-- The codes of the state register: the five states of R67 and the three others. -/
theorem StCode.cases (st : StCode) : st = St.waitHdr ∨ st = St.collectId ∨ st = St.collectData ∨ st = St.collectCk ∨
    st = St.collectEnd ∨ st = 5#3 ∨ st = 6#3 ∨ st = 7#3 := by
  revert st; decide

/-- Where the table is valid, the first row that fits is that of the operation the direct reading names. -/
theorem find?_selects {cfg : Config} (h : cfg.tableValid = true) (r v c : Bool) (st : StCode) (cnt : Cnt)
    (b : Byte) :
    Op.all.find? (fun op => op.selects cfg r v c st cnt b) = some (readDirect cfg r v c st cnt b).op := by
  obtain ⟨hid, hdata, -⟩ := cfg.tableValid_iff.mp h
  cases r
  case true => rfl
  cases v
  case false => rfl
  rcases StCode.cases st with rfl | rfl | rfl | rfl | rfl | rfl | rfl | rfl
  case inl => by_cases hb : b = cfg.hdrMark <;> simp [Op.all, Op.selects, hb, Instr.op]
  case inr.inl =>
    by_cases h7 : 7 ≤ cnt.toNat
    · simp [Op.all, Op.selects, hid, h7, Instr.op]
    · by_cases h6 : cnt.toNat = 6 <;> simp [Op.all, Op.selects, hid, h7, h6, Instr.op]
  case inr.inr.inl =>
    by_cases h4 : 4 ≤ cnt.toNat
    · simp [Op.all, Op.selects, hdata, h4, Instr.op]
    · by_cases h3 : cnt.toNat = 3 <;> simp [Op.all, Op.selects, hdata, h4, h3, Instr.op]
  case inr.inr.inr.inr.inl =>
    by_cases hb : b = cfg.endMark <;> cases c <;> simp [Op.all, Op.selects, hb, Instr.op]
  case inr.inr.inr.inl => rfl
  all_goals simp [Op.all, Op.selects, Instr.op]

theorem readDirect_op_instr (cfg : Config) (r v c : Bool) (st : StCode) {n : Nat} (cnt : BitVec n) (b : Byte) :
    (readDirect cfg r v c st cnt b).op.instr b = readDirect cfg r v c st cnt b := by
  unfold readDirect
  split_ifs <;> rfl

/-- The priority decode is the direct reading, where the table is valid (R5, R68, R69). -/
theorem decode_ofFields {cfg : Config} (h : cfg.tableValid = true) (r v c : Bool) (st : StCode) (cnt : Cnt)
    (b : Byte) :
    decode cfg (Word.ofFields r v c st cnt b) = .ok (readDirect cfg r v c st cnt b) := by
  rw [decode, decodeOp_ofFields, find?_selects h, Word.byte_ofFields]
  exact congrArg Except.ok (readDirect_op_instr ..)

/-- The direct reading sees the counter as a number, so its width does not matter. -/
theorem readDirect_congr_toNat (cfg : Config) (r v c : Bool) (st : StCode) {n m : Nat} {cnt : BitVec n}
    {cnt' : BitVec m} (h : cnt.toNat = cnt'.toNat) (b : Byte) :
    readDirect cfg r v c st cnt b = readDirect cfg r v c st cnt' b := by
  unfold readDirect
  rw [h]

end Sys2Proof

namespace Sys2Proof.Machine

/-- An edge selects what the direct reading names, for every value of the parameters. -/
theorem selectInstr_eq_readDirect (cfg : Config) (x : EdgeInput) (s : State cfg.cntW) :
    selectInstr cfg x s = .ok (readDirect cfg x.rst x.inValid (ckOk cfg s.buf) s.st s.cnt x.inByte) := by
  cases h : cfg.tableValid
  case false => exact selectInstr_direct h
  case true =>
    have hcnt : (s.cnt.setWidth 3).toNat = s.cnt.toNat := by
      obtain ⟨-, -, hw⟩ := cfg.tableValid_iff.mp h
      have hlt : s.cnt.toNat < 2 ^ 3 := s.cnt.isLt.trans_eq (congrArg (2 ^ ·) hw)
      rw [BitVec.toNat_setWidth, Nat.mod_eq_of_lt hlt]
    rw [selectInstr_table h, wordOf, decode_ofFields h, readDirect_congr_toNat _ _ _ _ _ hcnt]

theorem cycleAt_eq_perform_readDirect (cfg : Config) (x : EdgeInput) (s : State cfg.cntW) :
    cycleAt cfg x s = perform cfg (readDirect cfg x.rst x.inValid (ckOk cfg s.buf) s.st s.cnt x.inByte) s :=
  edgeBy_of_select (selectInstr_eq_readDirect cfg x s)

/-- Settles O52, by the priority decode where the table is valid and by the selection itself elsewhere. -/
theorem edgePerformsTheDirectReading : Obligations.EdgePerformsTheDirectReading :=
  cycleAt_eq_perform_readDirect

/-! The block at the defaults. -/

/-- An operation at the defaults is that of a block built with the default parameters. -/
theorem perform_std (i : Instr) (s : State) : perform Config.std i s = exec i s := by
  cases i <;> rfl

theorem cycleAt_std (x : EdgeInput) (s : State) : cycleAt Config.std x s = cycle x s := by
  have h : perform Config.std = exec := funext fun i => funext (perform_std i)
  rw [cycleAt, cycle, h]

theorem stepAt_std (s : State) : stepAt Config.std s = step s := by
  have h : cycleAt Config.std = cycle := funext fun x => funext (cycleAt_std x)
  rw [stepAt, step, h]

/-- Two machines with the same step run alike. -/
theorem run_congr_step {σ φ ρ : Type} {f g : σ → Host.Outcome σ φ ρ} (h : ∀ s, f s = g s) (r : σ) (n : Nat)
    (s : σ) :
    Host.Core.run ⟨σ, φ, ρ, f, r⟩ n s = Host.Core.run ⟨σ, φ, ρ, g, r⟩ n s := by
  rw [funext h]

theorem feedAt_std (xs : List EdgeInput) (s : State) : State.feedAt Config.std xs s = s.feed xs :=
  run_congr_step stepAt_std State.reset xs.length (s.present xs)

/-- Settles O51: the operations agree one by one, and with them the edge, the step and the run. -/
theorem machineIsTheDefaultBlock : Obligations.MachineIsTheDefaultBlock :=
  ⟨Config.std_valid, Config.std_tableValid, rfl, cycleAt_std, stepAt_std, feedAt_std⟩

end Sys2Proof.Machine
end

section
/-! Proofs: the sequencing of a block of any valid parameters on consuming edges (R28, R94 to R104). -/

namespace Sys2Proof

/-- The end byte is the last of a frame (R61, R62). -/
theorem Config.endPos_add_one (cfg : Config) : cfg.endPos + 1 = cfg.frameLen := rfl

end Sys2Proof

namespace Sys2Proof.Machine

section Sequence

variable {cfg : Config} {cntW : Nat} {st : StCode} {cnt : BitVec cntW}

/-- A frame is in progress: `st` and `cnt` are a legal pair outside `WAIT_HDR` (R28, R104). -/
def InFrame (cfg : Config) (st : StCode) {cntW : Nat} (cnt : BitVec cntW) : Prop :=
  st ≠ St.waitHdr ∧ illegal cfg st cnt = false

/-- The phases of a frame in progress. -/
theorem inFrame_iff :
    InFrame cfg st cnt ↔
      (st = St.collectId ∧ cnt.toNat < cfg.idLen) ∨ (st = St.collectData ∧ cnt.toNat < cfg.dataLen) ∨
      st = St.collectCk ∨ st = St.collectEnd := by
  rcases StCode.cases st with rfl | rfl | rfl | rfl | rfl | rfl | rfl | rfl <;> simp [InFrame, illegal]

theorem illegal_iff :
    illegal cfg st cnt = true ↔
      (st = St.collectId ∧ cfg.idLen ≤ cnt.toNat) ∨ (st = St.collectData ∧ cfg.dataLen ≤ cnt.toNat) ∨
      st = 5#3 ∨ st = 6#3 ∨ st = 7#3 := by
  rcases StCode.cases st with rfl | rfl | rfl | rfl | rfl | rfl | rfl | rfl <;> simp [illegal]

/-- A state waits for a header, is illegal, or has a frame in progress. -/
theorem waitHdr_or_illegal_or_inFrame (cfg : Config) (st : StCode) (cnt : BitVec cntW) :
    st = St.waitHdr ∨ illegal cfg st cnt = true ∨ InFrame cfg st cnt := by
  unfold InFrame
  cases illegal cfg st cnt <;> simp [em]

@[simp] theorem position_waitHdr : position cfg St.waitHdr cnt = 0 := rfl
@[simp] theorem position_collectId : position cfg St.collectId cnt = 1 + cnt.toNat := rfl
@[simp] theorem position_collectData : position cfg St.collectData cnt = cfg.dataPos + cnt.toNat := rfl
@[simp] theorem position_collectCk : position cfg St.collectCk cnt = cfg.ckPos := rfl
@[simp] theorem position_collectEnd : position cfg St.collectEnd cnt = cfg.endPos := rfl

/-- A frame in progress holds its header, and its next byte is at most the end byte. -/
theorem InFrame.position_bounds (h : InFrame cfg st cnt) :
    1 ≤ position cfg st cnt ∧ position cfg st cnt ≤ cfg.endPos := by
  rcases inFrame_iff.mp h with ⟨rfl, hlt⟩ | ⟨rfl, hlt⟩ | rfl | rfl <;> simp <;> omega

/-- The end byte alone is collected at its position. -/
theorem InFrame.position_eq_endPos_iff (h : InFrame cfg st cnt) :
    position cfg st cnt = cfg.endPos ↔ st = St.collectEnd := by
  rcases inFrame_iff.mp h with ⟨rfl, hlt⟩ | ⟨rfl, hlt⟩ | rfl | rfl <;> simp <;> omega

/-! The recovery table. -/

@[simp] theorem bytesNeeded_waitHdr : bytesNeeded cfg St.waitHdr cnt = 0 := rfl

/-- A frame in progress needs the bytes it still lacks. -/
theorem InFrame.bytesNeeded_add_position (h : InFrame cfg st cnt) :
    bytesNeeded cfg st cnt + position cfg st cnt = cfg.frameLen := by
  rw [bytesNeeded, if_neg h.1, if_neg (by simp [h.2])]
  rcases inFrame_iff.mp h with ⟨rfl, hlt⟩ | ⟨rfl, hlt⟩ | rfl | rfl <;> simp <;> omega

theorem bytesNeeded_of_illegal (h : illegal cfg st cnt = true) : bytesNeeded cfg st cnt = 1 := by
  have hst : st ≠ St.waitHdr := by rintro rfl; simp [illegal] at h
  rw [bytesNeeded, if_neg hst, if_pos h]

theorem bytesNeeded_le (cfg : Config) (st : StCode) (cnt : BitVec cntW) :
    bytesNeeded cfg st cnt ≤ cfg.frameLen - 1 := by
  rcases waitHdr_or_illegal_or_inFrame cfg st cnt with rfl | h | h
  · simp
  · simp [bytesNeeded_of_illegal h]
  · have := h.bytesNeeded_add_position
    have := h.position_bounds
    omega

/-- Counting on within a phase does not wrap. -/
theorem toNat_add_one {n : Nat} (hn : n ≤ 2 ^ cntW) (h : cnt.toNat + 1 < n) :
    (cnt + 1#cntW).toNat = cnt.toNat + 1 := by
  rw [BitVec.toNat_add, BitVec.toNat_ofNat, Nat.add_mod_mod, Nat.mod_eq_of_lt (h.trans_le hn)]

end Sequence

/-! The consuming edge, case by case of the state it meets. -/

section ConsumingEdge

variable {cfg : Config} {s : State cfg.cntW}

/-- The state after a collecting edge: the byte stands at cell `p`, `fv` and any window are closed (R94 to R100). -/
def State.collected (p : Nat) (b : Byte) (st : StCode) {cntW : Nat} (cnt : BitVec cntW) (s : State cntW) :
    State cntW :=
  (s.closeWindow.setSeq st cnt).setBuf (s.buf.write p b)

section Collected

variable (p : Nat) (b : Byte) (st : StCode) {cntW : Nat} (cnt : BitVec cntW) (s : State cntW)

@[simp] theorem State.collected_st : (s.collected p b st cnt).st = st := rfl
@[simp] theorem State.collected_cnt : (s.collected p b st cnt).cnt = cnt := rfl
@[simp] theorem State.collected_buf : (s.collected p b st cnt).buf = s.buf.write p b := rfl
@[simp] theorem State.collected_edge : (s.collected p b st cnt).edge = s.edge := rfl
@[simp] theorem State.collected_emitted : (s.collected p b st cnt).emitted = s.emitted := rfl
@[simp] theorem State.collected_discards : (s.collected p b st cnt).discards = s.discards := rfl

end Collected

theorem collect_eq_collected {cntW : Nat} {a : CellAddr cfg} {p : Nat} (ha : a.toNat = p) (hp : p < cfg.frameLen)
    (b : Byte) (st : StCode) (cnt : BitVec cntW) (s : State cntW) :
    collect cfg a b st cnt s = .next (s.collected p b st cnt) := by
  subst ha
  exact collect_eq hp b st cnt s

theorem cycleAt_byteEdge (cfg : Config) (b : Byte) (s : State cfg.cntW) :
    cycleAt cfg (byteEdge b) s = perform cfg (readDirect cfg false true (ckOk cfg s.buf) s.st s.cnt b) s :=
  cycleAt_eq_perform_readDirect cfg (byteEdge b) s

/-- HDR_MATCH (R94). -/
theorem cycleAt_header (h : s.st = St.waitHdr) :
    cycleAt cfg (byteEdge cfg.hdrMark) s = .next (s.collected 0 cfg.hdrMark St.collectId 0#cfg.cntW) := by
  rw [cycleAt_byteEdge, h, readDirect_waitHdr, if_pos rfl]
  exact collect_eq_collected headerCell_toNat (by simp) ..

/-- HDR_SKIP (R95). -/
theorem cycleAt_skip (h : s.st = St.waitHdr) {b : Byte} (hb : b ≠ cfg.hdrMark) :
    cycleAt cfg (byteEdge b) s = .next s.closeWindow := by
  rw [cycleAt_byteEdge, h, readDirect_waitHdr, if_neg hb]
  rfl

/-- RECOVER (R104). -/
theorem cycleAt_recover (h : illegal cfg s.st s.cnt = true) (b : Byte) :
    cycleAt cfg (byteEdge b) s = .next (s.discard [.recover] (.beforeAndByte s.regs b)) := by
  rw [cycleAt_byteEdge]
  rcases illegal_iff.mp h with ⟨hst, hle⟩ | ⟨hst, hle⟩ | hst | hst | hst <;> rw [hst]
  · rw [readDirect_collectId, if_pos hle]; rfl
  · rw [readDirect_collectData, if_pos hle]; rfl
  all_goals rfl

/-- ID_ACC, ID_LAST, DATA_ACC, DATA_LAST and CK_CAPTURE (R96 to R100): before the end byte, a frame in progress takes
the byte at its position and goes on to the next one. -/
theorem cycleAt_collect (hv : cfg.valid = true) (h : InFrame cfg s.st s.cnt) (hend : s.st ≠ St.collectEnd)
    (b : Byte) :
    ∃ st cnt, InFrame cfg st cnt ∧ position cfg st cnt = position cfg s.st s.cnt + 1 ∧
      cycleAt cfg (byteEdge b) s = .next (s.collected (position cfg s.st s.cnt) b st cnt) := by
  obtain ⟨hid, hdata, hidW, hdataW, -, -⟩ := cfg.valid_iff.mp hv
  rw [cycleAt_byteEdge]
  rcases inFrame_iff.mp h with ⟨hst, hlt⟩ | ⟨hst, hlt⟩ | hst | hst
  · rw [hst, readDirect_collectId, if_neg (by omega)]
    by_cases hlast : s.cnt.toNat = cfg.idLen - 1
    · refine ⟨St.collectData, 0#cfg.cntW, inFrame_iff.mpr ?_, ?_, ?_⟩
      · exact .inr (.inl ⟨rfl, by simp; omega⟩)
      · simp; omega
      · rw [if_pos hlast]
        exact collect_eq_collected (idCell_toNat hlt) (by simp; omega) ..
    · have hcnt := toNat_add_one hidW (cnt := s.cnt) (by omega)
      refine ⟨St.collectId, s.cnt + 1#cfg.cntW, inFrame_iff.mpr (.inl ⟨rfl, by omega⟩), by simp [hcnt]; omega, ?_⟩
      rw [if_neg hlast, ← hst]
      exact collect_eq_collected (by simpa [hst] using idCell_toNat hlt) (by simp [hst]; omega) ..
  · rw [hst, readDirect_collectData, if_neg (by omega)]
    by_cases hlast : s.cnt.toNat = cfg.dataLen - 1
    · refine ⟨St.collectCk, 0#cfg.cntW, inFrame_iff.mpr (by simp), by simp; omega, ?_⟩
      rw [if_pos hlast]
      exact collect_eq_collected (dataCell_toNat hlt) (by simp; omega) ..
    · have hcnt := toNat_add_one hdataW (cnt := s.cnt) (by omega)
      refine ⟨St.collectData, s.cnt + 1#cfg.cntW, inFrame_iff.mpr ?_, by simp [hcnt]; omega, ?_⟩
      · exact .inr (.inl ⟨rfl, by omega⟩)
      · rw [if_neg hlast, ← hst]
        exact collect_eq_collected (by simpa [hst] using dataCell_toNat hlt) (by simp [hst]; omega) ..
  · refine ⟨St.collectEnd, 0#cfg.cntW, inFrame_iff.mpr (by simp), by simp [hst], ?_⟩
    rw [hst]
    exact collect_eq_collected checksumCell_toNat (by simp) ..
  · exact absurd hst hend

/-- END_ACCEPT (R101). -/
theorem cycleAt_accept (h : s.st = St.collectEnd) (hck : ckOk cfg s.buf = true) :
    cycleAt cfg (byteEdge cfg.endMark) s =
      .next ((s.collected cfg.endPos cfg.endMark St.waitHdr 0#cfg.cntW).emit cfg) := by
  rw [cycleAt_byteEdge, h, readDirect_collectEnd, if_pos rfl, if_pos hck, perform, doEndAccept,
    collect_eq_collected endCell_toNat (by simp), thenDo_next]

/-- END_REJECT_CK and END_REJECT_TERM (R102, R103). -/
theorem cycleAt_reject (h : s.st = St.collectEnd) {b : Byte} (hb : ¬ (b = cfg.endMark ∧ ckOk cfg s.buf = true)) :
    ∃ rs, cycleAt cfg (byteEdge b) s =
      .next ((s.setBuf (s.buf.write cfg.endPos b)).discard rs (.endOfFrame (collectedBytes cfg s.buf) b)) := by
  rw [cycleAt_byteEdge, h, readDirect_collectEnd]
  by_cases hm : b = cfg.endMark
  · have hck : ¬ ckOk cfg s.buf = true := fun hck => hb ⟨hm, hck⟩
    rw [if_pos hm, if_neg hck]
    exact ⟨[.ck], reject_eq ..⟩
  · rw [if_neg hm]
    exact ⟨_, reject_eq ..⟩

/-- The end byte, accepted or rejected, leads back to `WAIT_HDR`. -/
theorem cycleAt_end_waitHdr (h : s.st = St.collectEnd) (b : Byte) :
    ∃ t, cycleAt cfg (byteEdge b) s = .next t ∧ t.st = St.waitHdr := by
  by_cases hb : b = cfg.endMark ∧ ckOk cfg s.buf = true
  · obtain ⟨rfl, hck⟩ := hb
    exact ⟨_, cycleAt_accept h hck, rfl⟩
  · obtain ⟨rs, hc⟩ := cycleAt_reject h hb
    exact ⟨_, hc, rfl⟩

end ConsumingEdge

/-! Recovery. -/

/-- Outside `WAIT_HDR`, each byte lowers the count of the recovery table by one. -/
theorem cycleAt_bytesNeeded {cfg : Config} (hv : cfg.valid = true) {s : State cfg.cntW} (h : s.st ≠ St.waitHdr)
    (b : Byte) :
    ∃ t, cycleAt cfg (byteEdge b) s = .next t ∧ bytesNeeded cfg t.st t.cnt + 1 = bytesNeeded cfg s.st s.cnt := by
  rcases waitHdr_or_illegal_or_inFrame cfg s.st s.cnt with hw | hill | hin
  · exact absurd hw h
  · exact ⟨_, cycleAt_recover hill b, by simp [bytesNeeded_of_illegal hill]⟩
  · have hneed := hin.bytesNeeded_add_position
    by_cases hend : s.st = St.collectEnd
    · obtain ⟨t, ht, hst⟩ := cycleAt_end_waitHdr hend b
      have hpos := hin.position_eq_endPos_iff.mpr hend
      refine ⟨t, ht, ?_⟩
      rw [hst, bytesNeeded_waitHdr]
      rw [hpos, ← cfg.endPos_add_one] at hneed
      omega
    · obtain ⟨st, cnt, hin', hpos, ht⟩ := cycleAt_collect hv hin hend b
      have hneed' := hin'.bytesNeeded_add_position
      exact ⟨_, ht, show bytesNeeded cfg st cnt + 1 = _ by omega⟩

theorem waitHdr_of_bytesNeeded_eq_zero {cfg : Config} {st : StCode} {n : Nat} {cnt : BitVec n}
    (h : bytesNeeded cfg st cnt = 0) : st = St.waitHdr := by
  rcases waitHdr_or_illegal_or_inFrame cfg st cnt with hw | hill | hin
  · exact hw
  · simp [bytesNeeded_of_illegal hill] at h
  · have hneed := hin.bytesNeeded_add_position
    have hpos := hin.position_bounds
    have hlen := cfg.endPos_add_one
    omega

/-- The bytes the recovery table gives lead to `WAIT_HDR` (R173). -/
theorem feedAt_bytesNeeded {cfg : Config} (hv : cfg.valid = true) (bs : List Byte) (s : State cfg.cntW)
    (h : bs.length = bytesNeeded cfg s.st s.cnt) :
    ∃ t, State.feedAt cfg (byteStream bs) s = .next t ∧ t.st = St.waitHdr := by
  induction bs generalizing s with
  | nil => exact ⟨_, feedAt_nil s, waitHdr_of_bytesNeeded_eq_zero h.symm⟩
  | cons b bs ih =>
    have hst : s.st ≠ St.waitHdr := by intro hw; simp [hw] at h
    obtain ⟨t, ht, hneed⟩ := cycleAt_bytesNeeded hv (s := s.advance (byteStream bs)) hst b
    rw [show byteStream (b :: bs) = byteEdge b :: byteStream bs from rfl, feedAt_cons ht]
    exact ih t (by simp at h hneed; omega)

/-- Settles O54, by induction on the bytes: each lowers the count of the recovery table by one. -/
theorem recoveryBoundForAnyLengths : Obligations.RecoveryBoundForAnyLengths :=
  fun cfg s bs hv h => ⟨h ▸ bytesNeeded_le cfg s.st s.cnt, feedAt_bytesNeeded hv bs s h⟩

end Sys2Proof.Machine
end

section
/-! Proofs: the acceptance of a frame in a block of any valid parameters (R62, R63). -/

namespace Sys2Proof.Machine

/-! The frame and its bytes. -/

section FrameBytes

variable {cfg : Config} {f : Frame}

theorem Frame.sized_iff :
    f.sized cfg = true ↔ f.identification.length = cfg.idLen ∧ f.data.length = cfg.dataLen := by
  simp [Frame.sized]

/-- The three conditions of R63. -/
theorem Frame.accepted_iff (h : f.sized cfg = true) :
    f.accepted cfg = true ↔ f.header = cfg.hdrMark ∧
      f.checksum.toNat = (f.command.toNat + f.intensity.toNat + f.colorBalance.toNat) % 2 ^ cfg.ckWidth ∧
      f.endByte = cfg.endMark := by
  rw [eq_comm (a := f.checksum.toNat)]
  simp [Frame.accepted, h, Frame.wellFormed, Frame.validateChecksum, sumBits_toNat]

theorem Frame.validateChecksum_of_accepted (h : f.accepted cfg = true) : f.validateChecksum cfg = true := by
  simp only [Frame.accepted, Frame.wellFormed, Bool.and_eq_true] at h
  obtain ⟨-, hck, -⟩ := h
  exact hck

theorem Frame.endByte_of_accepted (h : f.accepted cfg = true) : f.endByte = cfg.endMark := by
  simp only [Frame.accepted, Frame.wellFormed, Bool.and_eq_true, beq_iff_eq] at h
  obtain ⟨-, -, hend⟩ := h
  exact hend

/-- The bytes of a frame before its end byte, in wire order. -/
def Frame.beforeEnd (f : Frame) : List Byte :=
  f.header :: (f.identification ++ f.data ++ [f.checksum])

theorem Frame.bytes_eq (f : Frame) : f.bytes = f.beforeEnd ++ [f.endByte] := by
  simp [Frame.bytes, Frame.beforeEnd]

theorem Frame.length_beforeEnd (h : f.sized cfg = true) : f.beforeEnd.length = cfg.endPos := by
  have hlen := Frame.length_bytes h
  rw [Frame.bytes_eq, List.length_append, List.length_singleton, ← cfg.endPos_add_one] at hlen
  omega

/-! Where the bytes of a frame stand (R61). -/

theorem Frame.bytes_getElem?_identification {k : Nat} (hk : k < f.identification.length) :
    f.bytes[1 + k]? = some f.identification[k] := by
  rw [Nat.add_comm]
  simp [Frame.bytes, List.getElem?_append_left hk, hk]

theorem Frame.bytes_getElem?_after (f : Frame) (k : Nat) :
    f.bytes[1 + f.identification.length + k]? = (f.data ++ [f.checksum, f.endByte])[k]? := by
  rw [Nat.add_assoc, Nat.add_comm, Frame.bytes, List.getElem?_cons_succ, List.append_assoc,
    List.getElem?_append_right (Nat.le_add_right ..), Nat.add_sub_cancel_left]

/-- A buffer that holds the bytes of a frame at their positions holds the frame (R42). -/
theorem Frame.ofBuf_eq_of_bytes (h : f.sized cfg = true) {m : Memory}
    (hm : ∀ p, p < cfg.frameLen → f.bytes[p]? = some (m.read p)) : Frame.ofBuf cfg m = f := by
  obtain ⟨hid, hdata⟩ := Frame.sized_iff.mp h
  have hhead : m.read 0 = f.header := (Option.some.inj (hm 0 (by simp))).symm
  have hi : ∀ k (hk : k < f.identification.length), m.read (1 + k) = f.identification[k] := fun k hk => by
    have := hm (1 + k) (by simp; omega)
    rwa [Frame.bytes_getElem?_identification hk, Option.some_inj, eq_comm] at this
  have hafter : ∀ k, k < cfg.dataLen + 2 →
      (f.data ++ [f.checksum, f.endByte])[k]? = some (m.read (cfg.dataPos + k)) := fun k hk => by
    rw [← Frame.bytes_getElem?_after, hid]
    exact hm _ (by simp; omega)
  have hd : ∀ k (hk : k < f.data.length), m.read (cfg.dataPos + k) = f.data[k] := fun k hk => by
    have := hafter k (by omega)
    rwa [List.getElem?_append_left hk, List.getElem?_eq_getElem hk, Option.some_inj, eq_comm] at this
  have hck : m.read cfg.ckPos = f.checksum := by
    simpa [← hdata, eq_comm] using hafter cfg.dataLen (by omega)
  have hend : m.read cfg.endPos = f.endByte := by
    simpa [← hdata, ← Nat.add_assoc, eq_comm] using hafter (cfg.dataLen + 1) (by omega)
  have hI : (List.range cfg.idLen).map (fun k => m.read (1 + k)) = f.identification :=
    List.ext_getElem (by simp [hid]) fun k _ hk => by simpa using hi k hk
  have hD : (List.range cfg.dataLen).map (fun k => m.read (cfg.dataPos + k)) = f.data :=
    List.ext_getElem (by simp [hdata]) fun k _ hk => by simpa using hd k hk
  rw [Frame.ofBuf, Frame.ofRead, hhead, hI, hD, hck, hend]

/-- The first data byte is the magic byte (R62, R134). -/
theorem Frame.canIgnoreMagic_eq (h : 0 < f.data.length) :
    f.canIgnoreMagic cfg = decide (f.data[0]? = some cfg.ignoreMagic) := by
  obtain ⟨b, bs, hb⟩ := List.exists_cons_of_length_pos h
  simp [Frame.canIgnoreMagic, Frame.magic, hb, Bool.beq_eq_decide_eq]

end FrameBytes

/-! The frame in progress. -/

/-- The bytes `bs` of a frame in progress stand at the cells of their positions, and the next byte goes to the cell
after them (R28). -/
structure HoldsBytes (cfg : Config) {cntW : Nat} (bs : List Byte) (s : State cntW) : Prop where
  inFrame : InFrame cfg s.st s.cnt
  position_eq : position cfg s.st s.cnt = bs.length
  cells : ∀ p, p < bs.length → bs[p]? = some (s.buf.read p)

section InProgress

variable {cfg : Config} {s : State cfg.cntW}

/-- The bytes of a frame in progress with the next one stand in the buffer after the next one is stored. -/
theorem HoldsBytes.cells_write {bs : List Byte} (h : HoldsBytes cfg bs s) (b : Byte) (p : Nat)
    (hp : p < bs.length + 1) : (bs ++ [b])[p]? = some ((s.buf.write bs.length b).read p) := by
  rcases Nat.lt_succ_iff_lt_or_eq.mp hp with hlt | rfl
  · rw [List.getElem?_append_left hlt, h.cells p hlt, Memory.read_write_ne _ (Nat.ne_of_lt hlt)]
  · simp

theorem HoldsBytes.collected {bs : List Byte} (h : HoldsBytes cfg bs s) (b : Byte) {st : StCode}
    {cnt : BitVec cfg.cntW} (hin : InFrame cfg st cnt) (hpos : position cfg st cnt = bs.length + 1) :
    HoldsBytes cfg (bs ++ [b]) (s.collected bs.length b st cnt) where
  inFrame := hin
  position_eq := by simpa using hpos
  cells p hp := h.cells_write b p (by simpa using hp)

/-- A header byte from `WAIT_HDR` begins a frame in progress. -/
theorem holdsBytes_header (cfg : Config) (hv : cfg.valid = true) (s : State cfg.cntW) :
    HoldsBytes cfg [cfg.hdrMark] (s.collected 0 cfg.hdrMark St.collectId 0#cfg.cntW) where
  inFrame := inFrame_iff.mpr (.inl ⟨rfl, (cfg.valid_iff.mp hv).1⟩)
  position_eq := by simp
  cells p hp := by
    obtain rfl : p = 0 := by simpa using hp
    simp

/-- Before its end byte, a frame in progress takes any bytes, and no frame is emitted or discarded meanwhile. -/
theorem feedAt_collects (hv : cfg.valid = true) (bs rest : List Byte) {pre : List Byte} (h : HoldsBytes cfg pre s)
    (hlen : pre.length + bs.length ≤ cfg.endPos) :
    ∃ t, State.feedAt cfg (byteStream (bs ++ rest)) s = State.feedAt cfg (byteStream rest) t ∧
      HoldsBytes cfg (pre ++ bs) t ∧ t.edge = s.edge + bs.length ∧ t.emitted = s.emitted ∧
      t.discards = s.discards := by
  induction bs generalizing s pre with
  | nil => exact ⟨s, rfl, by simpa using h, rfl, rfl, rfl⟩
  | cons b bs ih =>
    have hend : s.st ≠ St.collectEnd := fun he => by
      have hpos := h.inFrame.position_eq_endPos_iff.mpr he
      rw [h.position_eq] at hpos
      simp at hlen hpos
      omega
    have hu : HoldsBytes cfg pre (s.advance (byteStream (bs ++ rest))) := ⟨h.inFrame, h.position_eq, h.cells⟩
    obtain ⟨st, cnt, hin, hpos, hc⟩ := cycleAt_collect hv hu.inFrame hend b
    rw [hu.position_eq] at hpos hc
    obtain ⟨t, hfeed, ht, hedge, hem, hdis⟩ := ih (hu.collected b hin hpos) (by simp at hlen ⊢; omega)
    refine ⟨t, (feedAt_cons hc).trans hfeed, by simpa using ht, ?_, hem, hdis⟩
    rw [hedge, List.length_cons]
    show s.edge + 1 + bs.length = _
    omega

end InProgress

/-! A frame fed from `WAIT_HDR`. -/

section WholeFrame

variable {cfg : Config} {f : Frame}

/-- With the end byte the buffer holds the whole frame. -/
theorem HoldsBytes.ofBuf_write_end {s : State cfg.cntW} (h : HoldsBytes cfg f.beforeEnd s) (hf : f.sized cfg = true) :
    Frame.ofBuf cfg (s.buf.write cfg.endPos f.endByte) = f := by
  refine Frame.ofBuf_eq_of_bytes hf fun p hp => ?_
  rw [Frame.bytes_eq, ← Frame.length_beforeEnd hf]
  exact h.cells_write _ p (by rw [Frame.length_beforeEnd hf]; exact hp)

/-- With all bytes before the end byte the end byte is due. -/
theorem HoldsBytes.st_eq_collectEnd {s : State cfg.cntW} (h : HoldsBytes cfg f.beforeEnd s)
    (hf : f.sized cfg = true) : s.st = St.collectEnd :=
  h.inFrame.position_eq_endPos_iff.mp (h.position_eq.trans (Frame.length_beforeEnd hf))

/-- Before the end byte `ck_ok` is the checksum test of the whole frame (R25, R131). -/
theorem HoldsBytes.ckOk_eq {s : State cfg.cntW} (h : HoldsBytes cfg f.beforeEnd s) (hf : f.sized cfg = true) :
    ckOk cfg s.buf = f.validateChecksum cfg := by
  have hbuf := Frame.ofBuf_write_end s.buf f.endByte (cfg := cfg)
  rw [h.ofBuf_write_end hf] at hbuf
  rw [hbuf]
  rfl

/-- From `WAIT_HDR` the bytes of a frame headed by `HDR_MARK` are collected up to its end byte. -/
theorem feedAt_beforeEnd (hv : cfg.valid = true) (hf : f.sized cfg = true) (hh : f.header = cfg.hdrMark)
    {s : State cfg.cntW} (hs : s.st = St.waitHdr) :
    ∃ t, State.feedAt cfg (byteStream f.bytes) s = State.feedAt cfg (byteStream [f.endByte]) t ∧
      HoldsBytes cfg f.beforeEnd t ∧ t.edge = s.edge + cfg.endPos ∧ t.emitted = s.emitted ∧
      t.discards = s.discards := by
  obtain ⟨body, hbody⟩ : ∃ body, f.beforeEnd = cfg.hdrMark :: body := ⟨_, by rw [Frame.beforeEnd, hh]⟩
  have hlen : body.length + 1 = cfg.endPos := by rw [← Frame.length_beforeEnd hf, hbody, List.length_cons]
  rw [Frame.bytes_eq, hbody]
  obtain ⟨t, hfeed, ht, hedge, hem, hdis⟩ :=
    feedAt_collects hv body [f.endByte] (holdsBytes_header cfg hv (s.advance (byteStream (body ++ [f.endByte]))))
      (by rw [← hlen, List.length_singleton, Nat.add_comm])
  refine ⟨t, (feedAt_cons (cycleAt_header hs)).trans hfeed, ht, ?_, hem, hdis⟩
  rw [hedge, State.collected_edge, State.advance_edge, ← hlen]
  omega

/-- The end byte of an accepted frame: it is emitted, and the buffer holds it in an open window (R101). -/
theorem feedAt_end_accept (hf : f.sized cfg = true) (ha : f.accepted cfg = true) {s : State cfg.cntW}
    (h : HoldsBytes cfg f.beforeEnd s) :
    ∃ t, State.feedAt cfg (byteStream [f.endByte]) s = .next t ∧ t.st = St.waitHdr ∧ t.cnt = 0#cfg.cntW ∧
      t.fv = true ∧ t.window = true ∧ Frame.ofBuf cfg t.buf = f ∧ t.discards = s.discards ∧
      t.emitted = s.emitted ++ [{ edge := s.edge + 1, frame := f }] := by
  have hst := h.st_eq_collectEnd hf
  have hbuf := h.ofBuf_write_end hf
  have hck : ckOk cfg s.buf = true := (h.ckOk_eq hf).trans (Frame.validateChecksum_of_accepted ha)
  rw [Frame.endByte_of_accepted ha] at hbuf ⊢
  exact ⟨_, feedAt_cons (cycleAt_accept (s := s.advance []) hst hck), rfl, rfl, rfl, rfl, hbuf, rfl,
    congrArg (fun g => s.emitted ++ [Emission.mk (s.edge + 1) g]) hbuf⟩

/-- The end byte of a frame that is not accepted: nothing is emitted (R102, R103). -/
theorem feedAt_end_reject (hf : f.sized cfg = true) (hh : f.header = cfg.hdrMark) (ha : f.accepted cfg = false)
    {s : State cfg.cntW} (h : HoldsBytes cfg f.beforeEnd s) :
    ∃ t, State.feedAt cfg (byteStream [f.endByte]) s = .next t ∧ t.st = St.waitHdr ∧ t.emitted = s.emitted := by
  have hb : ¬ (f.endByte = cfg.endMark ∧ ckOk cfg s.buf = true) := fun ⟨hm, hck⟩ => by
    rw [h.ckOk_eq hf] at hck
    simp [Frame.accepted, Frame.wellFormed, hf, hh, hm, hck] at ha
  obtain ⟨rs, hc⟩ := cycleAt_reject (s := s.advance []) (h.st_eq_collectEnd hf) hb
  exact ⟨_, feedAt_cons hc, rfl, rfl⟩

/-- A byte consumed before the end byte's position emits nothing and moves on by at most one position. -/
theorem cycleAt_quiet (hv : cfg.valid = true) {s : State cfg.cntW} (h : position cfg s.st s.cnt < cfg.endPos)
    (b : Byte) :
    ∃ t, cycleAt cfg (byteEdge b) s = .next t ∧ t.emitted = s.emitted ∧
      position cfg t.st t.cnt ≤ position cfg s.st s.cnt + 1 := by
  rcases waitHdr_or_illegal_or_inFrame cfg s.st s.cnt with hw | hill | hin
  · by_cases hb : b = cfg.hdrMark
    · exact ⟨_, hb ▸ cycleAt_header hw, by simp [hw]⟩
    · exact ⟨_, cycleAt_skip hw hb, by simp⟩
  · exact ⟨_, cycleAt_recover hill b, by simp⟩
  · have hend : s.st ≠ St.collectEnd := fun he => (hin.position_eq_endPos_iff.mpr he).not_lt h
    obtain ⟨st, cnt, -, hpos, hc⟩ := cycleAt_collect hv hin hend b
    exact ⟨_, hc, rfl, hpos.le⟩

/-- Bytes that do not reach past the end byte's position emit nothing. -/
theorem feedAt_quiet (hv : cfg.valid = true) (bs : List Byte) (s : State cfg.cntW)
    (hlen : position cfg s.st s.cnt + bs.length ≤ cfg.endPos) :
    ∃ t, State.feedAt cfg (byteStream bs) s = .next t ∧ t.emitted = s.emitted := by
  induction bs generalizing s with
  | nil => exact ⟨_, feedAt_nil s, rfl⟩
  | cons b bs ih =>
    rw [List.length_cons] at hlen
    have hlt : position cfg s.st s.cnt < cfg.endPos := by omega
    obtain ⟨u, hc, hem, hpos⟩ := cycleAt_quiet hv (s := s.advance (byteStream bs)) hlt b
    rw [State.advance_st, State.advance_cnt] at hpos
    obtain ⟨t, hfeed, hem'⟩ := ih u (by omega)
    exact ⟨t, (feedAt_cons hc).trans hfeed, hem'.trans hem⟩

/-- A frame not headed by `HDR_MARK` is not emitted: after its first byte too few are left for another frame (R63). -/
theorem feedAt_unheaded (hv : cfg.valid = true) (hf : f.sized cfg = true) (hh : f.header ≠ cfg.hdrMark)
    {s : State cfg.cntW} (hs : s.st = St.waitHdr) :
    ∃ t, State.feedAt cfg (byteStream f.bytes) s = .next t ∧ t.emitted = s.emitted := by
  obtain ⟨rest, hrest⟩ : ∃ rest, f.bytes = f.header :: rest := ⟨_, rfl⟩
  have hlen : rest.length = cfg.endPos := by
    have := Frame.length_bytes hf
    rw [hrest, List.length_cons, ← cfg.endPos_add_one] at this
    omega
  obtain ⟨t, hfeed, hem⟩ := feedAt_quiet hv rest (s.advance (byteStream rest)).closeWindow (by simp [hs, hlen])
  rw [hrest]
  exact ⟨t, (feedAt_cons (cycleAt_skip (s := s.advance (byteStream rest)) hs hh)).trans hfeed, hem⟩

/-- A frame fed from `WAIT_HDR` is emitted at its last byte where it is accepted, then standing in the buffer in an open
window; and nothing is emitted otherwise (R63). -/
theorem feedAt_frame (hv : cfg.valid = true) (hf : f.sized cfg = true) {s : State cfg.cntW} (hs : s.st = St.waitHdr) :
    ∃ t, State.feedAt cfg (byteStream f.bytes) s = .next t ∧
      t.emitted = s.emitted ++
        (if f.accepted cfg then [{ edge := s.edge + cfg.frameLen, frame := f }] else []) ∧
      (f.accepted cfg = true → t.window = true ∧ Frame.ofBuf cfg t.buf = f) := by
  by_cases hh : f.header = cfg.hdrMark
  · obtain ⟨u, hfeed, hu, hedge, hem, -⟩ := feedAt_beforeEnd hv hf hh hs
    rw [hfeed]
    cases ha : f.accepted cfg
    · obtain ⟨t, ht, -, hemt⟩ := feedAt_end_reject hf hh ha hu
      exact ⟨t, ht, by simp [hemt, hem], nofun⟩
    · obtain ⟨t, ht, -, -, -, hwin, hbuf, -, hemt⟩ := feedAt_end_accept hf ha hu
      exact ⟨t, ht, by rw [hemt, hem, hedge]; rfl, fun _ => ⟨hwin, hbuf⟩⟩
  · have ha : ¬ f.accepted cfg = true := fun ha => hh ((Frame.accepted_iff hf).mp ha).1
    obtain ⟨t, ht, hem⟩ := feedAt_unheaded hv hf hh hs
    exact ⟨t, ht, by simp [hem, ha], fun h => absurd h ha⟩

end WholeFrame

/-- Settles O53, by the frame fed from `WAIT_HDR` and what the ports show in the window it leaves. -/
theorem frameOfAnyLengthsAcceptedIff : Obligations.FrameOfAnyLengthsAcceptedIff := by
  intro cfg s f hv hf hs
  obtain ⟨t, ht, hem, hshow⟩ := feedAt_frame hv hf hs
  refine ⟨Frame.length_bytes hf, t, ht, ?_, fun ha => ?_⟩
  · simp only [← Frame.accepted_iff hf]
    exact hem
  · obtain ⟨hwin, hbuf⟩ := hshow ha
    obtain ⟨-, hdataLen⟩ := Frame.sized_iff.mp hf
    obtain ⟨-, hpos, -⟩ := cfg.valid_iff.mp hv
    have hdata : 0 < f.data.length := hdataLen ▸ hpos
    refine ⟨hbuf, ?_, ?_⟩
    · rw [State.frameOut, if_pos hwin, hbuf]
    · rw [State.frameIgnorable, if_pos hwin, hbuf, Frame.canIgnoreMagic_eq hdata]

end Sys2Proof.Machine
end

section
/-! Proofs: what one edge can do, said once, and what every edge keeps of the state (R28, R90). -/

namespace Sys2Proof.Machine

/-! The three kinds of edge (R60). -/

@[simp] theorem EdgeInput.consumes_iff {x : EdgeInput} : x.consumes = true ↔ x.rst = false ∧ x.inValid = true := by
  simp [EdgeInput.consumes]

@[simp] theorem EdgeInput.idles_iff {x : EdgeInput} : x.idles = true ↔ x.rst = false ∧ x.inValid = false := by
  simp [EdgeInput.idles]

theorem EdgeInput.not_consumes_of_rst {x : EdgeInput} (h : x.rst = true) : ¬ x.consumes = true := by
  simp [h]

theorem EdgeInput.not_consumes_of_idles {x : EdgeInput} (h : x.idles = true) : ¬ x.consumes = true := by
  simp [EdgeInput.idles_iff.mp h]

theorem EdgeInput.eq_byteEdge_of_consumes {x : EdgeInput} (h : x.consumes = true) : x = byteEdge x.inByte := by
  obtain ⟨hrst, hvalid⟩ := EdgeInput.consumes_iff.mp h
  cases x
  simp_all [byteEdge]

theorem EdgeInput.idles_or_consumes {x : EdgeInput} (h : x.rst = false) : x.idles = true ∨ x.consumes = true := by
  cases hv : x.inValid <;> simp [h, hv]

/-- The state after a reset edge (R92). -/
def State.afterReset {cntW : Nat} (s : State cntW) : State cntW :=
  (if s.st = St.waitHdr then s else s.discard [.reset] (.before s.regs)).closeWindow.setSeq
    St.waitHdr 0#cntW |>.setBuf Memory.clear

section Fields

variable {cntW : Nat} (s : State cntW)

@[simp] theorem State.afterReset_st : s.afterReset.st = St.waitHdr := rfl
@[simp] theorem State.afterReset_cnt : s.afterReset.cnt = 0#cntW := rfl
@[simp] theorem State.afterReset_buf : s.afterReset.buf = Memory.clear := rfl
@[simp] theorem State.afterReset_fv : s.afterReset.fv = false := rfl
@[simp] theorem State.afterReset_window : s.afterReset.window = false := rfl
@[simp] theorem State.afterReset_emitted : s.afterReset.emitted = s.emitted := by
  by_cases h : s.st = St.waitHdr <;> simp [State.afterReset, h]

@[simp] theorem State.collected_fv (p : Nat) (b : Byte) (st : StCode) (cnt : BitVec cntW) :
    (s.collected p b st cnt).fv = false := rfl
@[simp] theorem State.collected_window (p : Nat) (b : Byte) (st : StCode) (cnt : BitVec cntW) :
    (s.collected p b st cnt).window = false := rfl

end Fields

/-! What an operation does to `cnt`. -/

theorem collect_next {cfg : Config} {cntW : Nat} {a : CellAddr cfg} {b : Byte} {st : StCode} {cnt : BitVec cntW}
    {s t : State cntW} (h : collect cfg a b st cnt s = .next t) : t.st = st ∧ t.cnt = cnt := by
  obtain ⟨-, rfl⟩ := storeCell_next h
  exact ⟨rfl, rfl⟩

/-- Every rule that changes `st` writes `cnt <- 0` (R22). -/
theorem perform_cnt_of_st_ne {cfg : Config} {cntW : Nat} {i : Instr} {s t : State cntW}
    (h : perform cfg i s = .next t) (hne : t.st ≠ s.st) : t.cnt = 0#cntW := by
  cases i
  case idAcc b | dataAcc b => exact absurd (collect_next h).1 hne
  case hdrMatch b => exact (collect_next (a := headerCell cfg) h).2
  case idLast b | dataLast b | ckCapture b => exact (collect_next h).2
  case endAccept b =>
    rw [perform, doEndAccept, collect_eq (by simp)] at h
    cases h; rfl
  case endRejectCk b | endRejectTerm b => cases (reject_eq ..).symm.trans h; rfl
  case idle | hdrSkip => cases h; exact absurd rfl hne
  all_goals cases h; rfl

/-! The edge. -/

section Edge

variable {cfg : Config} {x : EdgeInput} {s t : State cfg.cntW}

/-- The conditions of END_ACCEPT on an edge's input and the state it meets (R69, R101). -/
structure AcceptsFrame (cfg : Config) (x : EdgeInput) {cntW : Nat} (s : State cntW) : Prop where
  consumes : x.consumes = true
  st_eq : s.st = St.collectEnd
  inByte_eq : x.inByte = cfg.endMark
  ckOk_eq : ckOk cfg s.buf = true

/-- What one edge can leave, by the input and the state it meets (R92 to R104). -/
inductive EdgeEffect (cfg : Config) (x : EdgeInput) (s : State cfg.cntW) : State cfg.cntW → Prop
  /-- RESET. -/
  | reset (hx : x.rst = true) : EdgeEffect cfg x s s.afterReset
  /-- IDLE. -/
  | idle (hx : x.idles = true) : EdgeEffect cfg x s s.clearFv
  /-- HDR_MATCH. -/
  | header (hx : x.consumes = true) (hst : s.st = St.waitHdr) (hb : x.inByte = cfg.hdrMark) :
    EdgeEffect cfg x s (s.collected 0 x.inByte St.collectId 0#cfg.cntW)
  /-- HDR_SKIP. -/
  | skip (hx : x.consumes = true) (hst : s.st = St.waitHdr) (hb : x.inByte ≠ cfg.hdrMark) :
    EdgeEffect cfg x s s.closeWindow
  /-- RECOVER. -/
  | recover (hx : x.consumes = true) (hill : illegal cfg s.st s.cnt = true) :
    EdgeEffect cfg x s (s.discard [.recover] (.beforeAndByte s.regs x.inByte))
  /-- ID_ACC, ID_LAST, DATA_ACC, DATA_LAST, CK_CAPTURE. -/
  | collect (hx : x.consumes = true) (hin : InFrame cfg s.st s.cnt) (hend : s.st ≠ St.collectEnd) (st : StCode)
    (cnt : BitVec cfg.cntW) (hin' : InFrame cfg st cnt)
    (hpos : position cfg st cnt = position cfg s.st s.cnt + 1) (hcnt : st ≠ s.st → cnt = 0#cfg.cntW) :
    EdgeEffect cfg x s (s.collected (position cfg s.st s.cnt) x.inByte st cnt)
  /-- END_ACCEPT. -/
  | accept (h : AcceptsFrame cfg x s) :
    EdgeEffect cfg x s ((s.collected cfg.endPos x.inByte St.waitHdr 0#cfg.cntW).emit cfg)
  /-- END_REJECT_CK, END_REJECT_TERM. -/
  | reject (hx : x.consumes = true) (hst : s.st = St.collectEnd)
    (hb : ¬ (x.inByte = cfg.endMark ∧ ckOk cfg s.buf = true)) (rs : List Cause) :
    EdgeEffect cfg x s
      ((s.setBuf (s.buf.write cfg.endPos x.inByte)).discard rs (.endOfFrame (collectedBytes cfg s.buf) x.inByte))

theorem cycleAt_of_rst (h : x.rst = true) : cycleAt cfg x s = .next s.afterReset := by
  rw [cycleAt_eq_perform_readDirect, readDirect, if_pos h]
  rfl

theorem cycleAt_of_idles (h : x.idles = true) : cycleAt cfg x s = .next s.clearFv := by
  obtain ⟨hrst, hvalid⟩ := EdgeInput.idles_iff.mp h
  rw [cycleAt_eq_perform_readDirect, hrst, hvalid]
  rfl

/-- A consuming edge, by the phase it meets. -/
theorem cycleAt_effect_of_consumes (hv : cfg.valid = true) (hx : x.consumes = true) (s : State cfg.cntW) :
    ∃ t, cycleAt cfg (byteEdge x.inByte) s = .next t ∧ EdgeEffect cfg x s t := by
  rcases waitHdr_or_illegal_or_inFrame cfg s.st s.cnt with hw | hill | hin
  · by_cases hb : x.inByte = cfg.hdrMark
    · have ht := cycleAt_header hw
      rw [← hb] at ht
      exact ⟨_, ht, .header hx hw hb⟩
    · exact ⟨_, cycleAt_skip hw hb, .skip hx hw hb⟩
  · exact ⟨_, cycleAt_recover hill x.inByte, .recover hx hill⟩
  · by_cases hend : s.st = St.collectEnd
    · by_cases hb : x.inByte = cfg.endMark ∧ ckOk cfg s.buf = true
      · obtain ⟨hbyte, hck⟩ := hb
        have ht := cycleAt_accept hend hck
        rw [← hbyte] at ht
        exact ⟨_, ht, .accept ⟨hx, hend, hbyte, hck⟩⟩
      · obtain ⟨rs, ht⟩ := cycleAt_reject hend hb
        exact ⟨_, ht, .reject hx hend hb rs⟩
    · obtain ⟨st, cnt, hin', hpos, ht⟩ := cycleAt_collect hv hin hend x.inByte
      exact ⟨_, ht, .collect hx hin hend st cnt hin' hpos
        (perform_cnt_of_st_ne ((cycleAt_byteEdge ..).symm.trans ht))⟩

/-- Every edge of a block of valid parameters answers a next state, with one of these effects. -/
theorem cycleAt_effect (hv : cfg.valid = true) (x : EdgeInput) (s : State cfg.cntW) :
    ∃ t, cycleAt cfg x s = .next t ∧ EdgeEffect cfg x s t := by
  cases hr : x.rst
  case true => exact ⟨_, cycleAt_of_rst hr, .reset hr⟩
  rcases EdgeInput.idles_or_consumes hr with hx | hx
  · exact ⟨_, cycleAt_of_idles hx, .idle hx⟩
  · obtain ⟨t, ht, he⟩ := cycleAt_effect_of_consumes hv hx s
    exact ⟨t, EdgeInput.eq_byteEdge_of_consumes hx ▸ ht, he⟩

/-- At the defaults. -/
theorem cycle_effect (x : EdgeInput) (s : State) : ∃ t, cycle x s = .next t ∧ EdgeEffect Config.std x s t := by
  rw [← cycleAt_std]
  exact cycleAt_effect Config.std_valid x s

end Edge

/-! The sequencing invariant. -/

section Sequencing

variable {cfg : Config} {x : EdgeInput}

/-- The sequencing invariant by whether a frame is in progress. -/
theorem sequencingInv_iff {cntW : Nat} {s : State cntW} :
    SequencingInv cfg s ↔
      (s.st = St.waitHdr ∧ s.cnt = 0#cntW) ∨
      (InFrame cfg s.st s.cnt ∧ s.buf.read 0 = cfg.hdrMark ∧
        (s.st = St.collectCk ∨ s.st = St.collectEnd → s.cnt = 0#cntW)) := by
  rw [inFrame_iff, SequencingInv]
  rcases StCode.cases s.st with h | h | h | h | h | h | h | h <;> simp [h, and_comm]

theorem SequencingInv.legal {cntW : Nat} {s : State cntW} (h : SequencingInv cfg s) :
    illegal cfg s.st s.cnt = false := by
  rcases sequencingInv_iff.mp h with ⟨hst, -⟩ | ⟨hin, -⟩
  · rw [hst]; rfl
  · exact hin.2

variable {s t : State cfg.cntW}

/-- A pair after a collecting edge with `st` in `COLLECT_CK` or `COLLECT_END` has just changed `st`. -/
theorem st_ne_of_position_succ {cntW : Nat} {st st' : StCode} {cnt cnt' : BitVec cntW}
    (hpos : position cfg st cnt = position cfg st' cnt' + 1) (h : st = St.collectCk ∨ st = St.collectEnd) :
    st ≠ st' := by
  rintro rfl
  rcases h with rfl | rfl <;> simp at hpos

theorem EdgeEffect.sequencingInv (he : EdgeEffect cfg x s t) (hv : cfg.valid = true) (h : SequencingInv cfg s) :
    SequencingInv cfg t := by
  cases he with
  | reset => exact .inl ⟨rfl, rfl⟩
  | idle => exact h
  | skip => exact h
  | header _ _ hb =>
    have hin := (holdsBytes_header cfg hv s).inFrame
    exact sequencingInv_iff.mpr (.inr ⟨hin, (Memory.read_write_same ..).trans hb, fun _ => rfl⟩)
  | recover => exact .inl ⟨rfl, rfl⟩
  | collect _ hin _ st cnt hin' hpos hcnt =>
    rcases sequencingInv_iff.mp h with ⟨hw, -⟩ | ⟨-, hhead, -⟩
    · exact absurd hw hin.1
    · have hne : 0 ≠ position cfg s.st s.cnt := Nat.ne_of_lt hin.position_bounds.1
      exact sequencingInv_iff.mpr (.inr ⟨hin', (Memory.read_write_ne _ hne _).trans hhead,
        fun hlate => hcnt (st_ne_of_position_succ hpos hlate)⟩)
  | accept => exact .inl ⟨rfl, rfl⟩
  | reject => exact .inl ⟨rfl, rfl⟩

end Sequencing

/-- Settles O33: the effect of every edge keeps the invariant, and with no input placed the state freezes. -/
theorem sequencingInvariantIsKept : Obligations.SequencingInvariantIsKept := by
  intro cfg s hv h
  refine ⟨h.legal, ?_⟩
  cases hin : s.inputs with
  | nil => exact ⟨s, nextEdge_nil hin, h⟩
  | cons x rest =>
    obtain ⟨t, ht, he⟩ := cycleAt_effect hv x (s.advance rest)
    exact ⟨t, (nextEdge_cons hin).trans ht, he.sequencingInv hv h⟩

/-! The cell an edge writes (R40, R42). -/

section Cells

variable {cfg : Config} {x : EdgeInput} {s t : State cfg.cntW}

theorem EdgeEffect.read_of_ne_position (he : EdgeEffect cfg x s t) (hx : x.rst = false) {p : Nat}
    (hp : p ≠ position cfg s.st s.cnt) : t.buf.read p = s.buf.read p := by
  cases he with
  | reset hrst => simp [hx] at hrst
  | idle => rfl
  | skip => rfl
  | recover => rfl
  | header _ hst => exact Memory.read_write_ne _ (by rwa [hst] at hp) _
  | collect => exact Memory.read_write_ne _ hp _
  | accept h => exact Memory.read_write_ne _ (by rwa [h.st_eq] at hp) _
  | reject _ hst => exact Memory.read_write_ne _ (by rwa [hst] at hp) _

/-- A frame in progress takes the byte at its position, and either it is over or it goes on to the next position. -/
theorem EdgeEffect.of_inFrame (he : EdgeEffect cfg x s t) (hx : x.consumes = true) (hin : InFrame cfg s.st s.cnt) :
    t.buf.read (position cfg s.st s.cnt) = x.inByte ∧
      ((s.st = St.collectEnd ∧ t.st = St.waitHdr) ∨
        (s.st ≠ St.collectEnd ∧ InFrame cfg t.st t.cnt ∧
          position cfg t.st t.cnt = position cfg s.st s.cnt + 1)) := by
  cases he with
  | reset hrst => exact absurd hx (EdgeInput.not_consumes_of_rst hrst)
  | idle hidle => exact absurd hx (EdgeInput.not_consumes_of_idles hidle)
  | header _ hst => exact absurd hst hin.1
  | skip _ hst => exact absurd hst hin.1
  | recover _ hill => simp [hin.2] at hill
  | collect _ _ hend st cnt hin' hpos => exact ⟨Memory.read_write_same .., .inr ⟨hend, hin', hpos⟩⟩
  | accept h => exact ⟨by simp [h.st_eq], .inl ⟨h.st_eq, rfl⟩⟩
  | reject _ hst => exact ⟨by simp [hst], .inl ⟨hst, rfl⟩⟩

end Cells

/-- Settles O24, by the effect of an edge on the cells and, in a frame in progress, on the position. -/
theorem consumedByteGoesToItsPosition : Obligations.ConsumedByteGoesToItsPosition := by
  refine ⟨fun x s hx => ?_, fun b s hst hleg => ?_⟩
  · obtain ⟨t, ht, he⟩ := cycle_effect x s
    exact ⟨t, ht, fun p hp => he.read_of_ne_position hx hp⟩
  · have hin : InFrame Config.std s.st s.cnt := ⟨hst, hleg⟩
    have hlast : position Config.std s.st s.cnt = 13 ↔ s.st = St.collectEnd := hin.position_eq_endPos_iff
    obtain ⟨t, ht, he⟩ := cycle_effect (byteEdge b) s
    obtain ⟨hread, ⟨hend, hw⟩ | ⟨hend, hin', hpos⟩⟩ := he.of_inFrame rfl hin
    · have h13 := hlast.mpr hend
      exact ⟨t, ht, hread, by rw [hw]; rfl, by simp [hw, h13], by simp [hw, h13]⟩
    · have h13 := mt hlast.mp hend
      exact ⟨t, ht, hread, hin'.2, by simp [hin'.1, h13], by rw [if_neg h13]; exact hpos⟩

/-! The frame-valid pulse (R24, R101). -/

section Pulse

variable {cntW : Nat} {s t : State cntW}

theorem newFrame_of_emitted_eq (h : t.emitted = s.emitted) : newFrame s t = none := by
  simp [newFrame, h]

theorem newFrame_of_emitted_append {e : Emission} (h : t.emitted = s.emitted ++ [e]) :
    newFrame s t = some e.frame := by
  simp [newFrame, h]

end Pulse

theorem readDirect_eq_endAccept_iff {cfg : Config} {r v c : Bool} {st : StCode} {n : Nat} {cnt : BitVec n}
    {b : Byte} :
    readDirect cfg r v c st cnt b = .endAccept b ↔
      (r = false ∧ v = true) ∧ st = St.collectEnd ∧ b = cfg.endMark ∧ c = true := by
  unfold readDirect
  split_ifs <;> simp_all

/-- An edge emits the frame it leaves in the buffer and raises `fv`, exactly where it is an END_ACCEPT edge; every
other edge emits nothing and clears `fv` (R24, R101). -/
theorem EdgeEffect.emits_or_not {cfg : Config} {x : EdgeInput} {s t : State cfg.cntW} (he : EdgeEffect cfg x s t) :
    (AcceptsFrame cfg x s ∧ t.fv = true ∧
      t.emitted = s.emitted ++ [{ edge := s.edge, frame := Frame.ofBuf cfg t.buf }]) ∨
    (¬ AcceptsFrame cfg x s ∧ t.fv = false ∧ t.emitted = s.emitted) := by
  cases he with
  | accept h => exact .inl ⟨h, rfl, rfl⟩
  | reset hx =>
    exact .inr ⟨fun h => EdgeInput.not_consumes_of_rst hx h.consumes, rfl, State.afterReset_emitted s⟩
  | idle hx => exact .inr ⟨fun h => EdgeInput.not_consumes_of_idles hx h.consumes, rfl, rfl⟩
  | header _ hst => exact .inr ⟨fun h => by simpa [hst] using h.st_eq, rfl, rfl⟩
  | skip _ hst => exact .inr ⟨fun h => by simpa [hst] using h.st_eq, rfl, rfl⟩
  | recover _ hill => exact .inr ⟨fun h => by simp [h.st_eq, illegal] at hill, rfl, rfl⟩
  | collect _ _ hend => exact .inr ⟨fun h => hend h.st_eq, rfl, rfl⟩
  | reject _ _ hb => exact .inr ⟨fun h => hb ⟨h.inByte_eq, h.ckOk_eq⟩, rfl, rfl⟩

/-- The decode word of an edge decodes to END_ACCEPT exactly under its conditions. -/
theorem decode_wordOf_eq_endAccept_iff {x : EdgeInput} {s : State} :
    decode Config.std (wordOf Config.std x s) = .ok (.endAccept x.inByte) ↔ AcceptsFrame Config.std x s := by
  rw [← selectInstr_table Config.std_tableValid, selectInstr_eq_readDirect Config.std x s, Except.ok.injEq,
    readDirect_eq_endAccept_iff, ← EdgeInput.consumes_iff]
  exact ⟨fun ⟨hx, hst, hb, hck⟩ => ⟨hx, hst, hb, hck⟩, fun ⟨hx, hst, hb, hck⟩ => ⟨hx, hst, hb, hck⟩⟩

/-- Settles O29: an END_ACCEPT edge does all of it, and every other edge none. -/
theorem frameValidIsAPulse : Obligations.FrameValidIsAPulse := by
  intro x s
  obtain ⟨t, ht, he⟩ := cycle_effect x s
  refine ⟨t, ht, rfl, ?_⟩
  rw [decode_wordOf_eq_endAccept_iff]
  rcases he.emits_or_not with ⟨hacc, hfv, hem⟩ | ⟨hacc, hfv, hem⟩
  · simp [hacc, hfv, newFrame_of_emitted_append hem]
  · simp [hacc, hfv, newFrame_of_emitted_eq hem]

/-! The bytes of the frame in progress (R28, the column `buf`). -/

section BytesSoFar

variable {cfg : Config} {x : EdgeInput} {xs : List EdgeInput} {s t : State cfg.cntW}

theorem consumedBytes_cons_of_idles (h : x.idles = true) : consumedBytes (x :: xs) = consumedBytes xs := by
  rw [consumedBytes, List.filter_cons_of_neg (EdgeInput.not_consumes_of_idles h)]
  rfl

theorem consumedBytes_cons_of_consumes (h : x.consumes = true) :
    consumedBytes (x :: xs) = x.inByte :: consumedBytes xs := by
  rw [consumedBytes, List.filter_cons_of_pos h]
  rfl

/-- Before the end byte a consumed byte joins those of the frame in progress. -/
theorem EdgeEffect.holdsBytes (he : EdgeEffect cfg x s t) (hx : x.consumes = true) {pre : List Byte}
    (h : HoldsBytes cfg pre s) (hlen : pre.length < cfg.endPos) : HoldsBytes cfg (pre ++ [x.inByte]) t := by
  have hnot : s.st ≠ St.collectEnd := fun hst =>
    hlen.ne (h.position_eq.symm.trans (h.inFrame.position_eq_endPos_iff.mpr hst))
  cases he with
  | reset hrst => exact absurd hx (EdgeInput.not_consumes_of_rst hrst)
  | idle hidle => exact absurd hx (EdgeInput.not_consumes_of_idles hidle)
  | header _ hst => exact absurd hst h.inFrame.1
  | skip _ hst => exact absurd hst h.inFrame.1
  | recover _ hill => simp [h.inFrame.2] at hill
  | collect _ _ _ st cnt hin' hpos =>
    rw [h.position_eq] at hpos ⊢
    exact h.collected x.inByte hin' hpos
  | accept h => exact absurd h.st_eq hnot
  | reject _ hst => exact absurd hst hnot

/-- A frame in progress takes the bytes consumed before its end byte, whatever idle edges lie between. -/
theorem feedAt_holdsBytes (hv : cfg.valid = true) (hrst : ∀ x ∈ xs, x.rst = false) {pre : List Byte}
    (h : HoldsBytes cfg pre s) (hs : SequencingInv cfg s)
    (hlen : pre.length + (consumedBytes xs).length ≤ cfg.endPos) :
    ∃ t, State.feedAt cfg xs s = .next t ∧ SequencingInv cfg t ∧ HoldsBytes cfg (pre ++ consumedBytes xs) t := by
  induction xs generalizing s pre with
  | nil => exact ⟨_, feedAt_nil s, hs, by simpa [consumedBytes] using ⟨h.inFrame, h.position_eq, h.cells⟩⟩
  | cons x xs ih =>
    rw [List.forall_mem_cons] at hrst
    obtain ⟨hrx, hrxs⟩ := hrst
    rcases EdgeInput.idles_or_consumes hrx with hx | hx
    · rw [consumedBytes_cons_of_idles hx] at hlen ⊢
      rw [feedAt_cons (cycleAt_of_idles hx)]
      exact ih hrxs ⟨h.inFrame, h.position_eq, h.cells⟩ hs hlen
    · rw [consumedBytes_cons_of_consumes hx, List.length_cons] at hlen
      obtain ⟨u, hu, he⟩ := cycleAt_effect hv x (s.advance xs)
      have hadv : HoldsBytes cfg pre (s.advance xs) := ⟨h.inFrame, h.position_eq, h.cells⟩
      have hnext := he.holdsBytes hx hadv (by omega)
      rw [feedAt_cons hu, consumedBytes_cons_of_consumes hx, List.append_cons]
      exact ih hrxs hnext (he.sequencingInv hv hs) (by rw [List.length_append, List.length_singleton]; omega)

/-- From `WAIT_HDR` a header byte and what is consumed after it, up to the end byte, stand in the buffer. -/
theorem feedAt_header_holdsBytes (hv : cfg.valid = true) (hrst : ∀ x ∈ xs, x.rst = false)
    (hst : s.st = St.waitHdr) {bs : List Byte} (hbs : consumedBytes xs = cfg.hdrMark :: bs)
    (hlen : bs.length < cfg.endPos) :
    ∃ t, State.feedAt cfg xs s = .next t ∧ SequencingInv cfg t ∧ HoldsBytes cfg (cfg.hdrMark :: bs) t := by
  induction xs generalizing s with
  | nil => simp [consumedBytes] at hbs
  | cons x xs ih =>
    rw [List.forall_mem_cons] at hrst
    obtain ⟨hrx, hrxs⟩ := hrst
    rcases EdgeInput.idles_or_consumes hrx with hx | hx
    · rw [consumedBytes_cons_of_idles hx] at hbs
      rw [feedAt_cons (cycleAt_of_idles hx)]
      exact ih hrxs hst hbs
    · rw [consumedBytes_cons_of_consumes hx, List.cons.injEq] at hbs
      obtain ⟨hb, rfl⟩ := hbs
      have hc := cycleAt_header (s := s.advance xs) hst
      rw [← hb, ← EdgeInput.eq_byteEdge_of_consumes hx, hb] at hc
      have hhold := holdsBytes_header cfg hv (s.advance xs)
      rw [feedAt_cons hc]
      exact feedAt_holdsBytes hv hrxs hhold
        (sequencingInv_iff.mpr (.inr ⟨hhold.inFrame, by simp, fun _ => rfl⟩))
        (by rw [List.length_singleton]; omega)

end BytesSoFar

/-- Settles O46, by induction on the inputs: idle edges keep the bytes, each other one adds its own. -/
theorem frameInProgressHoldsItsBytes : Obligations.FrameInProgressHoldsItsBytes := by
  intro s xs bs hst hrst hbs hlen
  obtain ⟨t, ht, hseq, hhold⟩ :=
    feedAt_header_holdsBytes (cfg := Config.std) Config.std_valid hrst hst hbs (Nat.lt_succ_of_le hlen)
  rw [feedAt_std] at ht
  exact ⟨t, ht, hseq, hhold.position_eq, hhold.cells⟩

/-- Settles O31: at reset nothing is in progress, no window is open and no event is recorded. -/
theorem resetStateMeetsTheInvariants : Obligations.ResetStateMeetsTheInvariants :=
  ⟨rfl, rfl, Memory.read_clear, rfl, Memory.wf_clear _, .inl ⟨rfl, rfl⟩, List.forall_mem_nil _, ⟨nofun, nofun⟩,
    ⟨.nil, List.forall_mem_nil _⟩, List.forall_mem_nil _⟩

end Sys2Proof.Machine
end

section
/-! Proofs: the checksum test and the packing of `frame_out` (R25, R44, R130 to R132, R139). -/

namespace Sys2Proof.Machine

/-! The checksum. -/

theorem validateChecksum_iff {cfg : Config} (f : Frame) :
    f.validateChecksum cfg = true ↔
      f.checksum.toNat = (f.command.toNat + f.intensity.toNat + f.colorBalance.toNat) % 2 ^ cfg.ckWidth := by
  rw [Frame.validateChecksum, beq_iff_eq, sumBits_toNat, eq_comm]

/-- At the defaults `computeChecksum` writes the sum of the three bytes to the checksum byte (R132). -/
theorem computeChecksum_std (f : Frame) :
    f.computeChecksum Config.std =
      { f with
        checksum := BitVec.ofNat 8 (f.command.toNat + f.intensity.toNat + f.colorBalance.toNat) } := by
  have hsum : (sumBits 8 f.command f.intensity f.colorBalance).setWidth 8 =
      BitVec.ofNat 8 (f.command.toNat + f.intensity.toNat + f.colorBalance.toNat) := by
    rw [BitVec.setWidth_eq]
    exact BitVec.eq_of_toNat_eq ((sumBits_toNat ..).trans (BitVec.toNat_ofNat ..).symm)
  rw [Frame.computeChecksum, hsum]

theorem validateChecksum_computeChecksum_std (f : Frame) :
    (f.computeChecksum Config.std).validateChecksum Config.std = true := by
  rw [computeChecksum_std, validateChecksum_iff]
  exact BitVec.toNat_ofNat ..

/-- Settles O26, by the sum as a number. -/
theorem checksumCheckIsTheModularSum : Obligations.ChecksumCheckIsTheModularSum :=
  ⟨validateChecksum_iff, ckOk_eq_validateChecksum,
    fun f => ⟨validateChecksum_computeChecksum_std f, computeChecksum_std f⟩⟩

/-! The packing (R44). -/

theorem packBytes_lt (bs : List Byte) : packBytes bs < 2 ^ (8 * bs.length) := by
  induction bs with
  | nil => simp [packBytes]
  | cons b bs ih =>
    have hb := b.isLt
    rw [packBytes, List.length_cons, Nat.mul_succ, Nat.pow_add]
    omega

/-- Byte `p` of the packed number is the byte at index `p`. -/
theorem packBytes_byte {bs : List Byte} {p : Nat} {b : Byte} (h : bs[p]? = some b) :
    packBytes bs / 2 ^ (8 * p) % 2 ^ 8 = b.toNat := by
  induction bs generalizing p with
  | nil => simp at h
  | cons c bs ih =>
    have hc := c.isLt
    cases p with
    | zero =>
      obtain rfl : c = b := by simpa using h
      simp only [packBytes]
      omega
    | succ p =>
      have hrest : packBytes (c :: bs) / 2 ^ 8 = packBytes bs := by simp only [packBytes]; omega
      rw [Nat.mul_succ, Nat.add_comm, Nat.pow_add, ← Nat.div_div_eq_div_mul, hrest]
      exact ih (by simpa using h)

/-- The bytes of the frame a reading of the positions gives are that reading (R42, R61). -/
theorem Frame.bytes_ofRead (cfg : Config) (read : Nat → Byte) :
    (Frame.ofRead cfg read).bytes = (List.range cfg.frameLen).map read := by
  simp [Frame.bytes, Frame.ofRead, List.range_add, List.range_succ, Nat.add_assoc, Function.comp_def]

/-- Bits [8p+7:8p] of the packed frame of a buffer are cell `p`. -/
theorem extractLsb'_pack_ofBuf {cfg : Config} (m : Memory) {p : Nat} (hp : p < cfg.frameLen) :
    ((Frame.ofBuf cfg m).pack cfg).extractLsb' (8 * p) 8 = m.read p := by
  have hbytes : (Frame.ofBuf cfg m).bytes[p]? = some (m.read p) := by
    rw [Frame.ofBuf, Frame.bytes_ofRead, List.getElem?_map, List.getElem?_range hp, Option.map_some]
  have hlt := packBytes_lt (Frame.ofBuf cfg m).bytes
  rw [Frame.length_bytes (Frame.sized_ofBuf m)] at hlt
  apply BitVec.eq_of_toNat_eq
  rw [BitVec.extractLsb'_toNat, Frame.pack, BitVec.toNat_ofNat, Nat.mod_eq_of_lt hlt, Nat.shiftRight_eq_div_pow,
    packBytes_byte hbytes]

/-- A slice of a slice is a slice. -/
theorem extractLsb'_extractLsb'_of_le {n len : Nat} (w : BitVec n) (start : Nat) {off k : Nat} (h : off + k ≤ len) :
    (w.extractLsb' start len).extractLsb' off k = w.extractLsb' (start + off) k := by
  refine BitVec.eq_of_getLsbD_eq fun i hi => ?_
  have hlt : off + i < len := by omega
  simp [hi, hlt, Nat.add_assoc]

section Port

variable {cfg : Config} {cntW : Nat} {s : State cntW}

/-- Inside a window byte `p` of `frame_out` is cell `p`. -/
theorem frameOut_byte (h : s.window = true) {p : Nat} (hp : p < cfg.frameLen) :
    (s.frameOut cfg).extractLsb' (8 * p) 8 = s.buf.read p := by
  rw [State.frameOut, if_pos h, extractLsb'_pack_ofBuf s.buf hp]

/-- Inside a window the frame read from the port is the frame of the buffer. -/
theorem ofPort_frameOut (h : s.window = true) : Frame.ofPort cfg (s.frameOut cfg) = Frame.ofBuf cfg s.buf :=
  Frame.ofRead_congr fun _ hp => frameOut_byte h hp

end Port

/-- Settles O28: every view is a slice of bytes that are cells. -/
theorem frameOutShowsTheBuffer : Obligations.FrameOutShowsTheBuffer := by
  intro s h
  have hbyte : ∀ p, p < 14 → (s.frameOut Config.std).extractLsb' (8 * p) 8 = s.buf.read p :=
    fun p hp => frameOut_byte h hp
  refine ⟨hbyte, ofPort_frameOut h, fun k hk => ?_, ?_⟩
  · have hstart : 8 + 8 * k = 8 * (1 + k) := by omega
    rw [extractLsb'_extractLsb'_of_le _ _ (by omega), hstart, hbyte (1 + k) (by omega)]
  · have hmagic : (s.frameOut Config.std).extractLsb' 64 8 = s.buf.read 8 := hbyte 8 (by omega)
    rw [hmagic, State.frameIgnorable, if_pos h, Frame.canIgnoreMagic, Frame.ofBuf_magic_std]
    exact Bool.beq_eq_decide_eq ..

end Sys2Proof.Machine
end

section
/-! Proofs: what one edge can do in a block of any parameters, valid or not, and the invariants of the buffer, the
window and the emissions (R40, R46, R49, R136, R184). -/

namespace Sys2Proof.Machine

/-! The store to a cell that does not exist (R40). -/

theorem collect_fault {cfg : Config} {cntW : Nat} {a : CellAddr cfg} (h : cfg.frameLen ≤ a.toNat) (b : Byte)
    (st : StCode) (cnt : BitVec cntW) (s : State cntW) : collect cfg a b st cnt s = .fault (.noSuchCell a.toNat) :=
  storeCell_fault h b _

/-- Settles O23: from `cnt` 6 on the data cell lies past the frame, and both operations collect there. -/
theorem storeToMissingCellStops : Obligations.StoreToMissingCellStops := by
  intro b s hcnt
  have hcell : 14 ≤ (dataCell Config.std s.cnt).toNat := by rw [dataCell_std_toNat]; omega
  exact ⟨collect_fault (cfg := Config.std) hcell .., collect_fault (cfg := Config.std) hcell .., hcell⟩

/-! The edge. -/

section AnyEdge

variable {cfg : Config} {x : EdgeInput} {s t : State cfg.cntW}

/-- The next byte of a legal state is one of a frame. -/
theorem position_lt_frameLen {st : StCode} {cntW : Nat} {cnt : BitVec cntW} (h : illegal cfg st cnt = false) :
    position cfg st cnt < cfg.frameLen := by
  by_cases hw : st = St.waitHdr
  · rw [hw]; simp
  · exact Nat.lt_succ_of_le (InFrame.position_bounds ⟨hw, h⟩).2

theorem toNat_add_one_le {cntW : Nat} (cnt : BitVec cntW) : (cnt + 1#cntW).toNat ≤ cnt.toNat + 1 := by
  rw [BitVec.toNat_add, BitVec.toNat_ofNat, Nat.add_mod_mod]
  exact Nat.mod_le ..

/-- Before the end byte, a frame in progress takes the byte at its position and goes on by at most one position:
where the counter is too narrow for its phase, it wraps (R5, R22). -/
theorem cycleAt_collect_any (h : InFrame cfg s.st s.cnt) (hend : s.st ≠ St.collectEnd) (b : Byte) :
    ∃ st cnt, position cfg st cnt ≤ position cfg s.st s.cnt + 1 ∧
      cycleAt cfg (byteEdge b) s = .next (s.collected (position cfg s.st s.cnt) b st cnt) := by
  have hp := position_lt_frameLen h.2
  have hwrap := toNat_add_one_le s.cnt
  rw [cycleAt_byteEdge]
  rcases inFrame_iff.mp h with ⟨hst, hlt⟩ | ⟨hst, hlt⟩ | hst | hst
  · rw [hst, position_collectId] at hp ⊢
    rw [readDirect_collectId, if_neg (by omega)]
    split_ifs with hlast
    · exact ⟨St.collectData, 0#cfg.cntW, by simp; omega, collect_eq_collected (idCell_toNat hlt) hp ..⟩
    · refine ⟨s.st, s.cnt + 1#cfg.cntW, ?_, collect_eq_collected (idCell_toNat hlt) hp ..⟩
      rw [hst, position_collectId]; omega
  · rw [hst, position_collectData] at hp ⊢
    rw [readDirect_collectData, if_neg (by omega)]
    split_ifs with hlast
    · exact ⟨St.collectCk, 0#cfg.cntW, by simp; omega, collect_eq_collected (dataCell_toNat hlt) hp ..⟩
    · refine ⟨s.st, s.cnt + 1#cfg.cntW, ?_, collect_eq_collected (dataCell_toNat hlt) hp ..⟩
      rw [hst, position_collectData]; omega
  · rw [hst, position_collectCk] at hp ⊢
    exact ⟨St.collectEnd, 0#cfg.cntW, by simp, collect_eq_collected checksumCell_toNat hp ..⟩
  · exact absurd hst hend

/-- What one edge can leave in a block of any parameters. For valid ones `EdgeEffect` says more of a collecting edge:
there the counter does not wrap. -/
inductive AnyEdgeEffect (cfg : Config) (x : EdgeInput) (s : State cfg.cntW) : State cfg.cntW → Prop
  /-- RESET. -/
  | reset (hx : x.rst = true) : AnyEdgeEffect cfg x s s.afterReset
  /-- IDLE. -/
  | idle (hx : x.idles = true) : AnyEdgeEffect cfg x s s.clearFv
  /-- HDR_SKIP. -/
  | skip (hx : x.consumes = true) (hst : s.st = St.waitHdr) (hb : x.inByte ≠ cfg.hdrMark) :
    AnyEdgeEffect cfg x s s.closeWindow
  /-- RECOVER. -/
  | recover (hx : x.consumes = true) (hill : illegal cfg s.st s.cnt = true) :
    AnyEdgeEffect cfg x s (s.discard [.recover] (.beforeAndByte s.regs x.inByte))
  /-- HDR_MATCH, ID_ACC, ID_LAST, DATA_ACC, DATA_LAST, CK_CAPTURE. -/
  | collect (hx : x.consumes = true) (hleg : illegal cfg s.st s.cnt = false) (hend : s.st ≠ St.collectEnd)
    (hb : s.st = St.waitHdr → x.inByte = cfg.hdrMark) (st : StCode) (cnt : BitVec cfg.cntW)
    (hpos : position cfg st cnt ≤ position cfg s.st s.cnt + 1) :
    AnyEdgeEffect cfg x s (s.collected (position cfg s.st s.cnt) x.inByte st cnt)
  /-- END_ACCEPT. -/
  | accept (h : AcceptsFrame cfg x s) :
    AnyEdgeEffect cfg x s ((s.collected cfg.endPos x.inByte St.waitHdr 0#cfg.cntW).emit cfg)
  /-- END_REJECT_CK, END_REJECT_TERM. -/
  | reject (hx : x.consumes = true) (hst : s.st = St.collectEnd)
    (hb : ¬ (x.inByte = cfg.endMark ∧ ckOk cfg s.buf = true)) (rs : List Cause) :
    AnyEdgeEffect cfg x s
      ((s.setBuf (s.buf.write cfg.endPos x.inByte)).discard rs (.endOfFrame (collectedBytes cfg s.buf) x.inByte))

/-- A consuming edge, by the phase it meets. -/
theorem cycleAt_anyEffect_of_consumes (hx : x.consumes = true) (s : State cfg.cntW) :
    ∃ t, cycleAt cfg (byteEdge x.inByte) s = .next t ∧ AnyEdgeEffect cfg x s t := by
  rcases waitHdr_or_illegal_or_inFrame cfg s.st s.cnt with hw | hill | hin
  · by_cases hb : x.inByte = cfg.hdrMark
    · have ht := cycleAt_header hw
      have he : AnyEdgeEffect cfg x s _ :=
        .collect hx (by rw [hw]; rfl) (by simp [hw]) (fun _ => hb) St.collectId 0#cfg.cntW (by simp)
      rw [← hb] at ht
      rw [hw, position_waitHdr] at he
      exact ⟨_, ht, he⟩
    · exact ⟨_, cycleAt_skip hw hb, .skip hx hw hb⟩
  · exact ⟨_, cycleAt_recover hill x.inByte, .recover hx hill⟩
  · by_cases hend : s.st = St.collectEnd
    · by_cases hb : x.inByte = cfg.endMark ∧ ckOk cfg s.buf = true
      · obtain ⟨hbyte, hck⟩ := hb
        have ht := cycleAt_accept hend hck
        rw [← hbyte] at ht
        exact ⟨_, ht, .accept ⟨hx, hend, hbyte, hck⟩⟩
      · obtain ⟨rs, ht⟩ := cycleAt_reject hend hb
        exact ⟨_, ht, .reject hx hend hb rs⟩
    · obtain ⟨st, cnt, hpos, ht⟩ := cycleAt_collect_any hin hend x.inByte
      exact ⟨_, ht, .collect hx hin.2 hend (fun hw => absurd hw hin.1) st cnt hpos⟩

/-- Every edge of every block answers a next state, with one of these effects. -/
theorem cycleAt_anyEffect (x : EdgeInput) (s : State cfg.cntW) :
    ∃ t, cycleAt cfg x s = .next t ∧ AnyEdgeEffect cfg x s t := by
  cases hr : x.rst
  case true => exact ⟨_, cycleAt_of_rst hr, .reset hr⟩
  rcases EdgeInput.idles_or_consumes hr with hx | hx
  · exact ⟨_, cycleAt_of_idles hx, .idle hx⟩
  · obtain ⟨t, ht, he⟩ := cycleAt_anyEffect_of_consumes hx s
    exact ⟨t, EdgeInput.eq_byteEdge_of_consumes hx ▸ ht, he⟩

/-- A step keeps a property of the state that every edge keeps: without an input the state freezes (R160). -/
theorem stepAt_keeps {P : State cfg.cntW → Prop} (h : P s)
    (hedge : ∀ x rest t, AnyEdgeEffect cfg x (s.advance rest) t → P t) : ∃ t, stepAt cfg s = .next t ∧ P t := by
  cases hin : s.inputs with
  | nil => exact ⟨s, nextEdge_nil hin, h⟩
  | cons x rest =>
    obtain ⟨t, ht, he⟩ := cycleAt_anyEffect x (s.advance rest)
    exact ⟨t, (nextEdge_cons hin).trans ht, hedge x rest t he⟩

/-! The form of the buffer (R40). -/

theorem AnyEdgeEffect.wf_buf (he : AnyEdgeEffect cfg x s t) (h : s.buf.wf cfg = true) : t.buf.wf cfg = true := by
  cases he with
  | reset => exact Memory.wf_clear cfg
  | idle => exact h
  | skip => exact h
  | recover => exact h
  | collect _ hleg => exact Memory.wf_write _ _ _ h (position_lt_frameLen hleg)
  | accept => exact Memory.wf_write _ _ _ h (Nat.lt_succ_self _)
  | reject => exact Memory.wf_write _ _ _ h (Nat.lt_succ_self _)

/-! The frame-output window (R46, R136). -/

theorem windowInv_of_closed {cntW : Nat} {s : State cntW} (hw : s.window = false) (hfv : s.fv = false) :
    WindowInv cfg s := by
  simp [WindowInv, hw, hfv]

theorem AnyEdgeEffect.windowInv (he : AnyEdgeEffect cfg x s t)
    (h : s.window = true → ∃ e, s.emitted.getLast? = some e ∧ e.frame = Frame.ofBuf cfg s.buf) :
    WindowInv cfg t := by
  cases he with
  | idle => exact ⟨h, nofun⟩
  | accept => exact ⟨fun _ => ⟨_, List.getLast?_concat, rfl⟩, fun _ => ⟨rfl, _, List.getLast?_concat, rfl⟩⟩
  | reset => exact windowInv_of_closed rfl rfl
  | skip => exact windowInv_of_closed rfl rfl
  | recover => exact windowInv_of_closed rfl rfl
  | collect => exact windowInv_of_closed rfl rfl
  | reject => exact windowInv_of_closed rfl rfl

/-- In an open window both ports show the frame emitted last. -/
theorem WindowInv.ports_eq {cntW : Nat} {s : State cntW} (h : WindowInv cfg s) (hw : s.window = true) :
    ∃ e, s.emitted.getLast? = some e ∧ s.frameOut cfg = e.frame.pack cfg ∧
      s.frameIgnorable cfg = e.frame.canIgnoreMagic cfg := by
  obtain ⟨e, hlast, hframe⟩ := h.1 hw
  exact ⟨e, hlast, by rw [State.frameOut, if_pos hw, hframe], by rw [State.frameIgnorable, if_pos hw, hframe]⟩

/-! The distance of the emissions (R49, R184). -/

theorem AnyEdgeEffect.position_le (he : AnyEdgeEffect cfg x s t) :
    position cfg t.st t.cnt ≤ position cfg s.st s.cnt + 1 := by
  cases he with
  | idle => exact Nat.le_succ _
  | skip => exact Nat.le_succ _
  | collect _ _ _ _ st cnt hpos => exact hpos
  | reset => exact Nat.zero_le _
  | recover => exact Nat.zero_le _
  | accept => exact Nat.zero_le _
  | reject => exact Nat.zero_le _

@[simp] theorem State.afterReset_edge {cntW : Nat} (s : State cntW) : s.afterReset.edge = s.edge := by
  by_cases h : s.st = St.waitHdr <;> simp [State.afterReset, h]

theorem AnyEdgeEffect.edge_eq (he : AnyEdgeEffect cfg x s t) : t.edge = s.edge := by
  cases he with
  | reset => exact s.afterReset_edge
  | _ => rfl

/-- An edge emits after the end byte, or not at all. -/
theorem AnyEdgeEffect.emitted_eq (he : AnyEdgeEffect cfg x s t) :
    t.emitted = s.emitted ∨
    (s.st = St.collectEnd ∧ t.st = St.waitHdr ∧
      t.emitted = s.emitted ++ [{ edge := s.edge, frame := Frame.ofBuf cfg t.buf }]) := by
  cases he with
  | accept h => exact .inr ⟨h.st_eq, rfl, rfl⟩
  | reset => exact .inl s.afterReset_emitted
  | _ => exact .inl rfl

/-- One edge later, with no emission and at most one position further. -/
theorem SpacingInv.next {cntW : Nat} {s t : State cntW} (h : SpacingInv cfg s) (hem : t.emitted = s.emitted)
    (hedge : t.edge = s.edge + 1) (hpos : position cfg t.st t.cnt ≤ position cfg s.st s.cnt + 1) :
    SpacingInv cfg t := by
  obtain ⟨hapart, hsince⟩ := h
  refine ⟨by rwa [hem], fun e he => ?_⟩
  have := hsince e (hem ▸ he)
  omega

/-- One edge later, with an emission at the end byte: as many edges have passed since each earlier one as a frame
has bytes. -/
theorem SpacingInv.emit {cntW : Nat} {s t : State cntW} {f : Frame} (h : SpacingInv cfg s)
    (hend : s.st = St.collectEnd) (hw : t.st = St.waitHdr) (hedge : t.edge = s.edge + 1)
    (hem : t.emitted = s.emitted ++ [{ edge := t.edge, frame := f }]) : SpacingInv cfg t := by
  obtain ⟨hapart, hsince⟩ := h
  rw [hend, position_collectEnd] at hsince
  have hfar : ∀ e ∈ s.emitted, e.edge + cfg.frameLen ≤ t.edge := fun e he => by
    have := hsince e he
    have := cfg.endPos_add_one
    omega
  rw [SpacingInv, hem, hw, position_waitHdr, List.map_append, List.pairwise_append]
  refine ⟨⟨hapart, List.pairwise_singleton .., by simpa using hfar⟩, fun e he => ?_⟩
  rcases List.mem_append.mp he with he | he
  · exact Nat.le_of_add_right_le (hfar e he)
  · rw [List.mem_singleton.mp he]; exact Nat.le_refl _

theorem AnyEdgeEffect.spacingInv {rest : List EdgeInput} (he : AnyEdgeEffect cfg x (s.advance rest) t)
    (h : SpacingInv cfg s) : SpacingInv cfg t := by
  have hedge : t.edge = s.edge + 1 := he.edge_eq
  rcases he.emitted_eq with hem | ⟨hend, hw, hem⟩
  · exact h.next hem hedge he.position_le
  · exact h.emit hend hw hedge (he.edge_eq ▸ hem)

end AnyEdge

/-- Settles O35: END_ACCEPT makes the invariant true, an idle edge keeps the frame shown, and every other edge closes
the window. -/
theorem openWindowShowsTheLastFrame : Obligations.OpenWindowShowsTheLastFrame :=
  fun _ _ h => ⟨h.ports_eq, stepAt_keeps h fun _ _ _ he => he.windowInv h.1⟩

/-- Settles O36: an edge moves on by at most one position, and emits only at the end byte. -/
theorem emissionsLieFourteenEdgesApart : Obligations.EmissionsLieFourteenEdgesApart :=
  fun _ _ h => stepAt_keeps h fun _ _ _ he => he.spacingInv h

/-- Settles O32: an edge clears the buffer, leaves it, or writes one cell of a frame. -/
theorem bufferStaysCanonical : Obligations.BufferStaysCanonical :=
  fun _ _ h => stepAt_keeps h fun _ _ _ he => he.wf_buf h

end Sys2Proof.Machine
end

section
/-! Proofs: the table and its encoder for any byte values (R5, R66, R68, R69), and the word of the next edge. -/

namespace Sys2Proof

/-! The table for other lengths. It holds no length, so its decode is the direct reading with the lengths it is written
for (R5, R69). -/

section AnyLengths

variable (cfg : Config)

/-- The parameters with the lengths the table is written for. -/
def Config.atTableLengths : Config := { cfg with idLen := 7, dataLen := 4, cntW := 3 }

theorem Config.tableValid_atTableLengths : cfg.atTableLengths.tableValid = true := rfl

theorem decode_atTableLengths (w : Word) : decode cfg.atTableLengths w = decode cfg w := rfl

theorem Instr.wf_atTableLengths (i : Instr) : i.wf cfg.atTableLengths = i.wf cfg := by cases i <;> rfl

/-- The priority decode reads the fields of the word, whatever lengths the block has. -/
theorem decode_eq_readDirect (w : Word) :
    decode cfg w = .ok (readDirect cfg.atTableLengths w.rst w.inValid w.ckOk w.st w.cnt w.byte) := by
  conv_lhs => rw [← decode_atTableLengths, ← Word.ofFields_fields w]
  exact decode_ofFields cfg.tableValid_atTableLengths ..

end AnyLengths

/-! The encoder. -/

section Encoder

variable (cfg : Config) (v : Word) (b : Byte)

/-- A word with its byte replaced decodes by the fields it keeps and the new byte. -/
theorem decode_withByte :
    decode cfg (v.withByte b) = .ok (readDirect cfg.atTableLengths v.rst v.inValid v.ckOk v.st v.cnt b) := by
  rw [Word.withByte_eq_ofFields, ← decode_atTableLengths]
  exact decode_ofFields cfg.tableValid_atTableLengths ..

/-- An instruction decodes by the fields of its row's match value and its operand, which takes the place of the byte
the match value holds. -/
theorem decode_encode_of_matchBits {i : Instr} (hb : i.byte? = some b) {m : Byte}
    (hrow : (i.op.row cfg).matchBits = v.withByte m) :
    decode cfg (encode cfg i) =
      .ok (readDirect cfg.atTableLengths v.rst v.inValid v.ckOk v.st v.cnt b) := by
  have hword : encode cfg i = v.withByte b := by
    rw [encode, hb]
    exact (congrArg (Word.withByte · b) hrow).trans (Laws.withByte_withByte v m b)
  rw [hword, decode_withByte]

end Encoder

/-- Each row's match value holds fields that the direct reading reads as the row's operation (R69). -/
theorem decode_encode (cfg : Config) {i : Instr} (h : i.wf cfg = true) : decode cfg (encode cfg i) = .ok i := by
  cases i with
  | reset => exact (decode_eq_readDirect cfg 0x10000).trans rfl
  | idle => exact (decode_eq_readDirect cfg 0x00000).trans rfl
  | hdrMatch b =>
    have hb : b = cfg.hdrMark := eq_of_beq h
    exact (decode_encode_of_matchBits cfg 0x08000 b rfl rfl).trans (congrArg Except.ok (if_pos hb))
  | hdrSkip b =>
    have hb : b ≠ cfg.hdrMark := bne_iff_ne.mp h
    exact (decode_withByte cfg 0x08000 b).trans (congrArg Except.ok (if_neg hb))
  | recoverId b => exact (decode_withByte cfg 0x08F00 b).trans rfl
  | idLast b => exact (decode_withByte cfg 0x08E00 b).trans rfl
  | idAcc b => exact (decode_withByte cfg 0x08800 b).trans rfl
  | recoverData b => exact (decode_withByte cfg 0x09400 b).trans rfl
  | dataLast b => exact (decode_withByte cfg 0x09300 b).trans rfl
  | dataAcc b => exact (decode_withByte cfg 0x09000 b).trans rfl
  | ckCapture b => exact (decode_withByte cfg 0x09800 b).trans rfl
  | endAccept b =>
    have hb : b = cfg.endMark := eq_of_beq h
    exact (decode_encode_of_matchBits cfg 0x0E000 b rfl rfl).trans (congrArg Except.ok (if_pos hb))
  | endRejectCk b =>
    have hb : b = cfg.endMark := eq_of_beq h
    exact (decode_encode_of_matchBits cfg 0x0A000 b rfl rfl).trans (congrArg Except.ok (if_pos hb))
  | endRejectTerm b =>
    have hb : b ≠ cfg.endMark := bne_iff_ne.mp h
    exact (decode_withByte cfg 0x0A000 b).trans (congrArg Except.ok (if_neg hb))
  | recoverSt5 b => exact (decode_withByte cfg 0x0A800 b).trans rfl
  | recoverSt67 b => exact (decode_withByte cfg 0x0B000 b).trans rfl

/-- Settles O5, by the cases of the instruction: the fields of its row's match value, with its operand as the byte,
read as the instruction. -/
theorem decodeOfEncodeIsTheInstruction : Obligations.DecodeOfEncodeIsTheInstruction :=
  fun cfg _ h => decode_encode cfg h

/-! The rows and their priorities. -/

section Rows

variable {cfg : Config} {w : Word} {r r' : OpRow}

/-- The rows stand in the table by rising priority (R68). -/
theorem opTable_pairwise_priority (cfg : Config) :
    (opTable cfg).Pairwise fun r r' => r.priority < r'.priority := by
  have hpriorities : (opTable cfg).map OpRow.priority = List.range' 1 16 := rfl
  rw [← List.pairwise_map, hpriorities]
  exact List.pairwise_lt_range'

/-- The first row that fits has the lowest priority of all that fit. -/
theorem priority_le_of_find? (h : (opTable cfg).find? (fun r => r.fits w) = some r) (hr' : r' ∈ opTable cfg)
    (hfit : r'.fits w = true) : r.priority ≤ r'.priority := by
  obtain ⟨-, before, after, htable, hbefore⟩ := List.find?_eq_some_iff_append.mp h
  have hsorted := opTable_pairwise_priority cfg
  rw [htable] at hr' hsorted
  rcases List.mem_append.mp hr' with hmem | hmem
  · simpa [hfit] using hbefore r' hmem
  · obtain ⟨-, hfrom, -⟩ := List.pairwise_append.mp hsorted
    rcases List.mem_cons.mp hmem with rfl | hafter
    · exact Nat.le_refl _
    · exact (List.rel_of_pairwise_cons hfrom hafter).le

theorem decode_of_find? (h : (opTable cfg).find? (fun r => r.fits w) = some r) :
    decode cfg w = .ok (r.op.instr w.byte) := by
  simp [decode, decodeOp, h]

/-- Every word fits a row (R68). -/
theorem exists_find?_opTable (cfg : Config) (w : Word) :
    ∃ r, (opTable cfg).find? (fun r => r.fits w) = some r := by
  cases h : (opTable cfg).find? fun r => r.fits w with
  | some r => exact ⟨r, rfl⟩
  | none =>
    have hdecode := decode_eq_readDirect cfg w
    simp [decode, decodeOp, h] at hdecode

theorem row_op_of_mem (h : r ∈ opTable cfg) : r.op.row cfg = r := by
  rw [opTable_eq_map] at h
  obtain ⟨op, -, rfl⟩ := List.mem_map.mp h
  rw [Op.op_row]

end Rows

/-- Settles O3: the priorities rise along the table, so the first row that fits is the lowest that fits. -/
theorem lowestFittingPriorityDecodes : Obligations.LowestFittingPriorityDecodes := by
  refine fun cfg => ⟨(opTable_pairwise_priority cfg).imp Nat.ne_of_lt, fun w => ?_⟩
  obtain ⟨r, hr⟩ := exists_find?_opTable cfg w
  exact ⟨r, List.mem_of_find?_eq_some hr, List.find?_some (p := fun r => OpRow.fits r w) hr, decode_of_find? hr,
    fun _ hmem hfit => priority_le_of_find? hr hmem hfit⟩

/-- Settles O4: the rows as data, and the priority decode as the direct reading of the word's own fields. -/
theorem tableDecodeIsDirectReading : Obligations.TableDecodeIsDirectReading := by
  refine ⟨rfl, fun cfg w h => ?_⟩
  conv_lhs => rw [← Word.ofFields_fields w]
  exact decode_ofFields h ..

/-! What the decoder answers. -/

theorem Op.op_instr (op : Op) (b : Byte) : (op.instr b).op = op := by cases op <;> rfl

/-- The only operand is the byte given. -/
theorem Op.eq_of_byte?_instr {op : Op} {b c : Byte} (h : (op.instr b).byte? = some c) : c = b := by
  cases op <;> cases h <;> rfl

/-- The direct reading names only operands their operation admits. -/
theorem wf_readDirect (cfg : Config) (r v c : Bool) (st : StCode) {n : Nat} (cnt : BitVec n) (b : Byte) :
    (readDirect cfg r v c st cnt b).wf cfg = true := by
  unfold readDirect
  split_ifs <;> simp_all [Instr.wf]

theorem wf_of_decode {cfg : Config} {w : Word} {i : Instr} (h : decode cfg w = .ok i) : i.wf cfg = true := by
  rw [decode_eq_readDirect] at h
  cases h
  rw [← Instr.wf_atTableLengths]
  exact wf_readDirect ..

/-- Settles O6: the operand is admitted as the direct reading's, and row and byte are those of the row found. -/
theorem decodedInstructionIsWellFormed : Obligations.DecodedInstructionIsWellFormed := by
  intro cfg w i h
  obtain ⟨r, hr⟩ := exists_find?_opTable cfg w
  have hi : r.op.instr w.byte = i := Except.ok.inj ((decode_of_find? hr).symm.trans h)
  refine ⟨wf_of_decode h, ?_, fun b hb => ?_⟩
  · rw [← hi, Op.op_instr, row_op_of_mem (List.mem_of_find?_eq_some hr)]
    exact List.find?_some (p := fun r => OpRow.fits r w) hr
  · rw [← hi] at hb
    exact Op.eq_of_byte?_instr hb

end Sys2Proof

namespace Sys2Proof.Machine

/-! The word of the next edge (R66). -/

/-- At the defaults the word holds the whole counter. -/
theorem wordOf_std (x : EdgeInput) (s : State) :
    wordOf Config.std x s = Word.ofFields x.rst x.inValid (ckOk Config.std s.buf) s.st s.cnt x.inByte := by
  rw [wordOf, BitVec.setWidth_eq]

/-- Settles O2: the word of its fields, the fields of a word, and `ck_ok` as the equality of R25. -/
theorem decodeWordHoldsItsFields : Obligations.DecodeWordHoldsItsFields := by
  refine ⟨fun rst inValid ck st cnt b => ?_, Word.ofFields_fields, fun x s => ?_⟩
  · exact ⟨Word.rst_ofFields .., Word.inValid_ofFields .., Word.ckOk_ofFields .., Word.st_ofFields ..,
      Word.cnt_ofFields .., Word.byte_ofFields ..⟩
  · rw [wordOf_std, ckOk_std, Bool.beq_eq_decide_eq]

/-- Only cell 12 is changed to set `ck_ok`. -/
theorem Memory.read_withCkOk_ne (c : Bool) (m : Memory) {p : Nat} (hp : p ≠ 12) :
    (Memory.withCkOk c m).read p = m.read p := by
  unfold Memory.withCkOk
  split_ifs
  · rfl
  · exact Memory.read_write_ne m hp _
  · exact Memory.read_write_ne m hp _

/-- The input a decode word asks for (R66). -/
def EdgeInput.ofWord (w : Word) : EdgeInput := { rst := w.rst, inValid := w.inValid, inByte := w.byte }

theorem State.presentWord_inputs (w : Word) (s : State) :
    (s.presentWord w).inputs = EdgeInput.ofWord w :: s.inputs := rfl

/-- A word presented is the decode word of its edge. -/
theorem wordOf_presentWord (w : Word) (s : State) : wordOf Config.std (EdgeInput.ofWord w) (s.presentWord w) = w := by
  rw [wordOf_std]
  show Word.ofFields w.rst w.inValid (ckOk Config.std (Memory.withCkOk w.ckOk s.buf)) w.st w.cnt w.byte = w
  rw [ckOk_withCkOk, Word.ofFields_fields]

/-- A word presented is run by the next step. -/
theorem step_presentWord {w : Word} {i : Instr} (h : decode Config.std w = .ok i) (s : State) :
    step (s.presentWord w) = exec i ((s.presentWord w).advance s.inputs) := by
  rw [step, nextEdge_cons (State.presentWord_inputs w s)]
  exact cycle_of_decode ((congrArg (decode Config.std) (wordOf_presentWord w s)).trans h)

theorem decodeTableWord_of_decode {nbits n : Nat} (hn : n < 2 ^ 17) (hbits : n < 2 ^ nbits) {i : Instr}
    (h : decode Config.std (BitVec.ofNat 17 n) = .ok i) : decodeTableWord nbits n = some i := by
  rw [decodeTableWord, Nat.mod_eq_of_lt hbits, decodeNat, if_pos hn, h]

/-- Settles O8: the word presented is that of the next edge, and only cell 12 is written for it. -/
theorem fetchedWordIsTheOneRun : Obligations.FetchedWordIsTheOneRun := by
  intro s nbits n hn hbits
  have hword : s.withFetchWord nbits n = s.presentWord (BitVec.ofNat 17 n) := by
    rw [State.withFetchWord, Nat.mod_eq_of_lt hbits]
  have hdecode := decode_eq_readDirect Config.std (BitVec.ofNat 17 n)
  rw [hword]
  exact ⟨⟨_, State.presentWord_inputs .., wordOf_presentWord ..⟩,
    ⟨_, decodeTableWord_of_decode hn hbits hdecode, step_presentWord hdecode s⟩,
    fun _ hp => Memory.read_withCkOk_ne _ _ hp, rfl⟩

/-- Settles O1, by evaluating the table decode on each word. -/
theorem vectorWordsDecode : Obligations.VectorWordsDecode := by
  unfold Obligations.VectorWordsDecode
  decide

/-! A frame at the defaults (R63). -/

theorem Frame.accepted_std_iff {f : Frame} (h : f.sized Config.std = true) :
    f.accepted Config.std = true ↔
      f.header = 0x53#8 ∧ f.checksum = sum8 f.command f.intensity f.colorBalance ∧ f.endByte = 0x00#8 := by
  rw [eq_comm (a := f.checksum)]
  simp [Frame.accepted, h, Frame.wellFormed, validateChecksum_std]

/-- Settles O38, by the frame of any lengths fed from `WAIT_HDR`. -/
theorem fourteenBytesAcceptedIff : Obligations.FourteenBytesAcceptedIff := by
  intro s f hf hs
  obtain ⟨t, ht, hem, -⟩ := feedAt_frame (cfg := Config.std) Config.std_valid hf hs
  rw [feedAt_std] at ht
  simp only [Frame.accepted_std_iff hf] at hem
  exact ⟨t, ht, hem⟩

/-! The command byte (R64, R138). -/

theorem decodeCommand_eq_unknown_iff (x : Byte) :
    decodeCommand x = .unknown ↔ x ∉ [0x01#8, 0x10#8, 0x02#8, 0xE0#8] := by
  unfold decodeCommand
  split_ifs <;> simp_all

/-- As numbers, the bytes answered Unknown are all but the four named ones. -/
theorem filter_decodeCommand_unknown :
    (Finset.range 256).filter (fun n => decodeCommand (BitVec.ofNat 8 n) = .unknown) =
      Finset.range 256 \ {0x01, 0x10, 0x02, 0xE0} := by
  ext n
  rw [Finset.mem_filter, Finset.mem_sdiff, decodeCommand_eq_unknown_iff]
  refine and_congr_right fun hn => ?_
  have hmod : n % 256 = n := Nat.mod_eq_of_lt (Finset.mem_range.mp hn)
  simp [← BitVec.toNat_inj, hmod]

/-- Settles O27, by the tests on the byte; of the 256 bytes four are named. -/
theorem commandDecodeIsTotal : Obligations.CommandDecodeIsTotal := by
  have hcard : ((Finset.range 256).filter fun n => decodeCommand (BitVec.ofNat 8 n) = .unknown).card = 252 := by
    rw [filter_decodeCommand_unknown, Finset.card_sdiff_of_subset (by decide), Finset.card_range]
    rfl
  exact ⟨rfl, rfl, rfl, rfl, decodeCommand_eq_unknown_iff, hcard⟩

end Sys2Proof.Machine
end

section
/-! Proofs: which row each edge selects, and the whole next state of each operation (R69, R92 to R104). -/

namespace Sys2Proof.Machine

/-! The row an edge selects. -/

/-- At the defaults the decode word of an edge decodes to what the direct reading names. -/
theorem decode_wordOf_std (x : EdgeInput) (s : State) :
    decode Config.std (wordOf Config.std x s) =
      .ok (readDirect Config.std x.rst x.inValid (ckOk Config.std s.buf) s.st s.cnt x.inByte) := by
  rw [wordOf_std]
  exact decode_ofFields Config.std_tableValid ..

theorem row_mem_opTable (cfg : Config) (op : Op) : op.row cfg ∈ opTable cfg := by
  rw [opTable_eq_map]
  exact List.mem_map_of_mem (by cases op <;> decide)

/-- An edge selects the row of the operation the direct reading names. -/
theorem selected_of_readDirect {x : EdgeInput} {s : State} {i : Instr}
    (h : readDirect Config.std x.rst x.inValid (ckOk Config.std s.buf) s.st s.cnt x.inByte = i) :
    Selected (i.op.row Config.std).priority (i.op.row Config.std).matchBits (i.op.row Config.std).mask
      (wordOf Config.std x s) i := by
  have hdecode : decode Config.std (wordOf Config.std x s) = .ok i := h ▸ decode_wordOf_std x s
  obtain ⟨-, hfits, -⟩ := decodedInstructionIsWellFormed _ _ _ hdecode
  exact ⟨⟨_, row_mem_opTable .., rfl, rfl, rfl, Op.op_row .., hfits⟩, hdecode⟩

/-- Settles O7: an input placed is the next edge's, and the edge performs what its word decodes to. -/
theorem stepRunsTheDecodedInstruction : Obligations.StepRunsTheDecodedInstruction := by
  refine ⟨fun s x rest i hin hdecode => ?_, fun s hin => nextEdge_nil hin⟩
  rw [step, nextEdge_cons hin]
  exact cycle_of_decode (s := s.advance rest) hdecode

theorem storesOnly_of_buf {a : CellAddr Config.std} {b : Byte} {s t : State} (h : t.buf = s.buf.write a.toNat b) :
    StoresOnly a b s t := fun p => by rw [h, Memory.read_write]

/-! Edges without a byte. -/

theorem State.afterReset_discards {cntW : Nat} (s : State cntW) :
    s.afterReset.discards =
      if s.st = St.waitHdr then s.discards
      else s.discards ++ [{ edge := s.edge, reasons := [.reset], record := .before s.regs }] := by
  by_cases h : s.st = St.waitHdr <;> simp [State.afterReset, h]

@[simp] theorem State.afterReset_inputs {cntW : Nat} (s : State cntW) : s.afterReset.inputs = s.inputs := by
  by_cases h : s.st = St.waitHdr <;> simp [State.afterReset, h]

/-- The state after a reset edge, field by field (R92). -/
theorem State.afterReset_eq {cntW : Nat} (s : State cntW) :
    s.afterReset = { s with
      st := St.waitHdr, cnt := 0#cntW, buf := Memory.clear, fv := false, window := false,
      discards := if s.st = St.waitHdr then s.discards
        else s.discards ++ [{ edge := s.edge, reasons := [.reset], record := .before s.regs }] } := by
  rw [← s.afterReset_discards, State.mk.injEq]
  exact ⟨rfl, rfl, rfl, rfl, rfl, s.afterReset_edge, s.afterReset_emitted, rfl, s.afterReset_inputs⟩

/-- Settles O10: reset is read before every other condition, and its next state is that of R92. -/
theorem resetEdgeResult : Obligations.ResetEdgeResult := by
  intro x s hrst
  exact ⟨selected_of_readDirect (i := .reset) (by rw [hrst]; rfl), s.afterReset, rfl, Memory.read_clear,
    s.afterReset_eq⟩

/-- Settles O11: `fv` alone is written. -/
theorem idleEdgeResult : Obligations.IdleEdgeResult := by
  intro x s hrst hvalid
  exact ⟨selected_of_readDirect (i := .idle) (by rw [hrst, hvalid]; rfl), s.clearFv, rfl, fun _ => rfl, rfl⟩

/-! The operations of `WAIT_HDR`. -/

/-- Settles O12, by the collecting edge to cell 0. -/
theorem hdrMatchResult : Obligations.HdrMatchResult := by
  intro s hst
  refine ⟨selected_of_readDirect (i := .hdrMatch 0x53) (by rw [hst]; rfl), ?_⟩
  exact ⟨_, collect_eq (cfg := Config.std) (a := headerCell Config.std) (by simp) .., storesOnly_of_buf rfl,
    headerCell_toNat, rfl⟩

/-- Settles O13: no register but `fv` is written. -/
theorem hdrSkipResult : Obligations.HdrSkipResult := by
  intro b s hst hb
  refine ⟨selected_of_readDirect (i := .hdrSkip b) ?_, s.closeWindow, rfl, fun _ => rfl, rfl⟩
  rw [hst]
  exact if_neg hb

/-! The collecting operations. At the defaults every cell they can address from their rows exists. -/

theorem toNat_succ_of_lt_seven {cnt : BitVec 3} (h : cnt.toNat < 7) : (cnt + 1#3).toNat = cnt.toNat + 1 :=
  toNat_add_one (n := 8) (by decide) (by omega)

/-- Settles O14: `cnt` at most 5 is neither past the phase nor at its last byte, and does not wrap. -/
theorem idAccResult : Obligations.IdAccResult := by
  intro b s hst hcnt
  have hcell := idCell_std_toNat s.cnt
  have hlegal : ¬ 7 ≤ s.cnt.toNat := by omega
  have hmore : ¬ s.cnt.toNat = 6 := by omega
  refine ⟨selected_of_readDirect (i := .idAcc b) ?_, ?_⟩
  · rw [hst]
    exact (if_neg hlegal).trans (if_neg hmore)
  · exact ⟨_, collect_eq (cfg := Config.std) (a := idCell Config.std s.cnt) (by simp; omega) ..,
      storesOnly_of_buf rfl, hcell, rfl, toNat_succ_of_lt_seven (by omega)⟩

/-- Settles O15: `cnt` 6 is the last byte of the phase, at cell 7. -/
theorem idLastResult : Obligations.IdLastResult := by
  intro b s hst hcnt
  have hcell := idCell_std_toNat s.cnt
  have hlegal : ¬ 7 ≤ s.cnt.toNat := by omega
  rw [hcnt] at hcell
  refine ⟨selected_of_readDirect (i := .idLast b) ?_, ?_⟩
  · rw [hst]
    exact (if_neg hlegal).trans (if_pos hcnt)
  · exact ⟨_, collect_eq (cfg := Config.std) (a := idCell Config.std s.cnt) (by simp [hcell]) ..,
      storesOnly_of_buf rfl, hcell, rfl⟩

/-- Settles O16: `cnt` at most 2 is neither past the phase nor at its last byte, and does not wrap. -/
theorem dataAccResult : Obligations.DataAccResult := by
  intro b s hst hcnt
  have hcell := dataCell_std_toNat s.cnt
  have hlegal : ¬ 4 ≤ s.cnt.toNat := by omega
  have hmore : ¬ s.cnt.toNat = 3 := by omega
  refine ⟨selected_of_readDirect (i := .dataAcc b) ?_, ?_⟩
  · rw [hst]
    exact (if_neg hlegal).trans (if_neg hmore)
  · exact ⟨_, collect_eq (cfg := Config.std) (a := dataCell Config.std s.cnt) (by simp; omega) ..,
      storesOnly_of_buf rfl, hcell, rfl, toNat_succ_of_lt_seven (by omega)⟩

/-- Settles O17: `cnt` 3 is the last byte of the phase, at cell 11. -/
theorem dataLastResult : Obligations.DataLastResult := by
  intro b s hst hcnt
  have hcell := dataCell_std_toNat s.cnt
  have hlegal : ¬ 4 ≤ s.cnt.toNat := by omega
  rw [hcnt] at hcell
  refine ⟨selected_of_readDirect (i := .dataLast b) ?_, ?_⟩
  · rw [hst]
    exact (if_neg hlegal).trans (if_pos hcnt)
  · exact ⟨_, collect_eq (cfg := Config.std) (a := dataCell Config.std s.cnt) (by simp [hcell]) ..,
      storesOnly_of_buf rfl, hcell, rfl⟩

/-- Settles O18, by the collecting edge to cell 12. -/
theorem ckCaptureResult : Obligations.CkCaptureResult := by
  intro b s hst
  refine ⟨selected_of_readDirect (i := .ckCapture b) (by rw [hst]; rfl), ?_⟩
  exact ⟨_, collect_eq (cfg := Config.std) (a := checksumCell Config.std) (by simp) .., storesOnly_of_buf rfl,
    checksumCell_toNat, rfl⟩

/-! The operations of `COLLECT_END`. -/

/-- END_ACCEPT: the end byte is stored, and the buffer with it is the frame emitted (R101). -/
theorem exec_endAccept_eq (b : Byte) (s : State) :
    exec (.endAccept b) s = .next ((s.collected 13 b St.waitHdr 0#3).emit Config.std) := by
  show thenDo (collect Config.std (endCell Config.std) b St.waitHdr 0#3 s) (State.emit Config.std) = _
  rw [collect_eq_collected (p := 13) endCell_toNat (by decide), thenDo_next]

/-- In an open window the port tells by cell 8 alone whether the frame is ignorable (R26, R134). -/
theorem frameIgnorable_std {s : State} (h : s.window = true) :
    s.frameIgnorable Config.std = decide (s.buf.read 8 = 0xA4#8) := by
  rw [State.frameIgnorable, if_pos h, Frame.canIgnoreMagic, Frame.ofBuf_magic_std]
  exact Bool.beq_eq_decide_eq ..

/-- Settles O19: the buffer as the edge leaves it is emitted and shown; of a frame in progress cell 0 is the header. -/
theorem endAcceptResult : Obligations.EndAcceptResult := by
  intro s hst hck
  refine ⟨selected_of_readDirect (i := .endAccept 0x00) (by rw [hst, hck]; rfl), _, exec_endAccept_eq .., ?_⟩
  have hread : ∀ {p}, p ≠ 13 → (s.buf.write 13 0x00#8).read p = s.buf.read p := fun hp => Memory.read_write_ne _ hp _
  refine ⟨storesOnly_of_buf (by rw [endCell_toNat]; rfl), endCell_toNat, rfl, if_pos rfl, ?_,
    Memory.read_write_same s.buf 13 0x00#8, fun hinv => ?_⟩
  · rw [frameIgnorable_std rfl]
    exact congrArg (fun b : Byte => decide (b = 0xA4#8)) (hread (by decide))
  · rcases sequencingInv_iff.mp hinv with ⟨hw, -⟩ | ⟨-, hhead, -⟩
    · simp [hst] at hw
    · exact (hread (by decide)).trans hhead

/-- A rejecting edge stores the end byte alone, and its discard records the 13 bytes before it (R102, R103, R150). -/
theorem reject_std_stores (rs : List Cause) (b : Byte) (s : State) :
    ∃ t, reject Config.std rs b s = .next t ∧ StoresOnly (endCell Config.std) b s t ∧
      t = { s with
        st := St.waitHdr, cnt := 0#3, buf := t.buf, fv := false, window := false,
        discards := s.discards ++
          [{ edge := s.edge, reasons := rs, record := .endOfFrame ((List.range 13).map s.buf.read) b }] } := by
  exact ⟨_, reject_eq rs b s, storesOnly_of_buf (by rw [endCell_toNat]), rfl⟩

/-- Settles O20, by the rejecting edge with the cause CK. -/
theorem endRejectCkResult : Obligations.EndRejectCkResult := by
  intro s hst hck
  obtain ⟨t, ht, hstore, heq⟩ := reject_std_stores [.ck] 0x00 s
  exact ⟨selected_of_readDirect (i := .endRejectCk 0x00) (by rw [hst, hck]; rfl), t, ht, hstore, endCell_toNat, heq⟩

/-- The causes of END_REJECT_TERM, by `ck_ok` (R103, R153). -/
def termCauses (ck : Bool) : List Cause := if ck then [.term] else [.ck, .term]

theorem exec_endRejectTerm_eq (b : Byte) (s : State) :
    exec (.endRejectTerm b) s = reject Config.std (termCauses (ckOk Config.std s.buf)) b s := rfl

theorem termCauses_spec (ck : Bool) :
    .term ∈ termCauses ck ∧ (.ck ∈ termCauses ck ↔ ck = false) ∧ .reset ∉ termCauses ck ∧
      .recover ∉ termCauses ck ∧ (termCauses ck).Nodup := by
  cases ck <;> decide

/-- Settles O21, by the rejecting edge with the causes that `ck_ok` gives. -/
theorem endRejectTermResult : Obligations.EndRejectTermResult := by
  intro b s hst hb
  obtain ⟨hterm, hck, hreset, hrecover, hnodup⟩ := termCauses_spec (ckOk Config.std s.buf)
  obtain ⟨t, ht, hstore, heq⟩ := reject_std_stores (termCauses (ckOk Config.std s.buf)) b s
  refine ⟨selected_of_readDirect (i := .endRejectTerm b) ?_, t, (exec_endRejectTerm_eq b s).trans ht, hstore,
    endCell_toNat, _, rfl, rfl, hterm, hck, hreset, hrecover, hnodup, heq⟩
  rw [hst]
  exact if_neg hb

/-! Recovery. -/

/-- Settles O22: each row by its illegal `st` and `cnt`, and the recovering edge all four share. -/
theorem recoverResult : Obligations.RecoverResult := by
  refine ⟨fun b s hst hcnt => selected_of_readDirect (i := .recoverId b) ?_,
    fun b s hst hcnt => selected_of_readDirect (i := .recoverData b) ?_,
    fun b s hst => selected_of_readDirect (i := .recoverSt5 b) (by rw [hst]; rfl),
    fun b s hst => selected_of_readDirect (i := .recoverSt67 b) ?_, fun b s i hi => ?_, fun s _ => ?_⟩
  · rw [hst]
    exact if_pos hcnt.ge
  · rw [hst]
    exact if_pos hcnt
  · rcases hst with hst | hst <;> rw [hst] <;> rfl
  · have hexec : exec i s = recover b s := by
      simp only [List.mem_cons, List.not_mem_nil, or_false] at hi
      rcases hi with rfl | rfl | rfl | rfl <;> rfl
    exact ⟨_, hexec.trans (recover_eq b s), fun _ => rfl, rfl⟩
  · exact ⟨s.clearFv, (cycleAt_std ..).symm.trans (cycleAt_of_idles rfl), rfl, rfl, rfl⟩

end Sys2Proof.Machine
end

section
/-! Proofs: the window over one edge, and runs taken apart: into edges, into a part and the rest, and into frames
(R63, R109 to R112, R136). -/

namespace Sys2Proof.Machine

/-! The frame-output window (R136). -/

theorem EdgeInput.idles_eq_false_of_rst {x : EdgeInput} (h : x.rst = true) : x.idles = false := by
  simp [EdgeInput.idles, h]

theorem EdgeInput.idles_eq_false_of_consumes {x : EdgeInput} (h : x.consumes = true) : x.idles = false :=
  Bool.eq_false_iff.mpr fun hidle => EdgeInput.not_consumes_of_idles hidle h

/-- After an edge a window is open where the edge emitted, or was idle with a window open before. -/
theorem EdgeEffect.window_eq {cfg : Config} {x : EdgeInput} {s t : State cfg.cntW} (he : EdgeEffect cfg x s t) :
    t.window = (t.fv || (x.idles && s.window)) := by
  cases he with
  | reset hx => simp [EdgeInput.idles_eq_false_of_rst hx]
  | idle hx => simp [hx]
  | accept => rfl
  | header hx | skip hx | recover hx | collect hx | reject hx =>
    rw [EdgeInput.idles_eq_false_of_consumes hx]
    rfl

/-- Settles O30, by the effect of an edge on the window; an idle edge leaves all that both ports read. -/
theorem windowOpensAndCloses : Obligations.WindowOpensAndCloses := by
  intro x s
  obtain ⟨t, ht, he⟩ := cycle_effect x s
  refine ⟨t, ht, ?_, fun hidle hw => ?_⟩
  · rw [decode_wordOf_eq_endAccept_iff, he.window_eq]
    rcases he.emits_or_not with ⟨hacc, hfv, -⟩ | ⟨hacc, hfv, -⟩ <;> simp [hacc, hfv]
  · have hclear : cycle x s = .next s.clearFv := (cycleAt_std ..).symm.trans (cycleAt_of_idles hidle)
    obtain rfl : t = s.clearFv := Host.Outcome.next.inj (ht.symm.trans hclear)
    exact ⟨rfl, rfl⟩

/-! Runs of any inputs. -/

section Runs

variable {cfg : Config} {s t : State cfg.cntW} {xs : List EdgeInput}

theorem cycleAt_edge {x : EdgeInput} (h : cycleAt cfg x s = .next t) : t.edge = s.edge :=
  (perform_inputs_edge ((cycleAt_eq_perform_readDirect cfg x s).symm.trans h)).2

/-- Every run goes on to its end, and counts its edges (R151). -/
theorem exists_feedAt (xs : List EdgeInput) (s : State cfg.cntW) :
    ∃ t, State.feedAt cfg xs s = .next t ∧ t.edge = s.edge + xs.length := by
  induction xs generalizing s with
  | nil => exact ⟨_, feedAt_nil s, rfl⟩
  | cons x xs ih =>
    obtain ⟨u, hu, -⟩ := cycleAt_anyEffect x (s.advance xs)
    obtain ⟨t, ht, hedge⟩ := ih u
    refine ⟨t, (feedAt_cons hu).trans ht, ?_⟩
    rw [hedge, cycleAt_edge hu, State.advance_edge, List.length_cons]
    omega

theorem feedAt_edge (h : State.feedAt cfg xs s = .next t) : t.edge = s.edge + xs.length := by
  obtain ⟨u, hu, hedge⟩ := exists_feedAt xs s
  obtain rfl : t = u := Host.Outcome.next.inj (h.symm.trans hu)
  exact hedge

/-- What the model's bookkeeping leaves and every edge of a run keeps, the run keeps. -/
theorem feedAt_keeps {P : State cfg.cntW → Prop} (hbook : ∀ u ys, P u → P (u.present ys) ∧ P (u.advance ys))
    (hedge : ∀ x ∈ xs, ∀ u, P u → ∃ t, cycleAt cfg x u = .next t ∧ P t) (h : P s) :
    ∃ t, State.feedAt cfg xs s = .next t ∧ P t := by
  induction xs generalizing s with
  | nil => exact ⟨_, feedAt_nil s, (hbook s [] h).1⟩
  | cons x xs ih =>
    rw [List.forall_mem_cons] at hedge
    obtain ⟨hx, hxs⟩ := hedge
    obtain ⟨u, hu, hPu⟩ := hx _ (hbook s xs h).2
    rw [feedAt_cons hu]
    exact ih hxs hPu

/-! A run in two parts. No operation reads the inputs still to come. -/

theorem storeCell_present {cntW : Nat} (a : CellAddr cfg) (v : Byte) (ys : List EdgeInput) (s : State cntW) :
    storeCell cfg a v (s.present ys) = thenDo (storeCell cfg a v s) (State.present ys) := by
  unfold storeCell
  by_cases h : a.toNat < cfg.frameLen
  · rw [if_pos h, if_pos h]; rfl
  · rw [if_neg h, if_neg h]; rfl

theorem collect_present {cntW : Nat} (a : CellAddr cfg) (b : Byte) (st : StCode) (cnt : BitVec cntW)
    (ys : List EdgeInput) (s : State cntW) :
    collect cfg a b st cnt (s.present ys) = thenDo (collect cfg a b st cnt s) (State.present ys) :=
  storeCell_present a b ys (s.closeWindow.setSeq st cnt)

theorem reject_present {cntW : Nat} (rs : List Cause) (b : Byte) (ys : List EdgeInput) (s : State cntW) :
    reject cfg rs b (s.present ys) = thenDo (reject cfg rs b s) (State.present ys) := by
  rw [reject_eq, reject_eq]
  rfl

theorem perform_present {cntW : Nat} (i : Instr) (ys : List EdgeInput) (s : State cntW) :
    perform cfg i (s.present ys) = thenDo (perform cfg i s) (State.present ys) := by
  cases i with
  | reset =>
    refine congrArg Host.Outcome.next ((State.afterReset_eq _).trans ?_)
    rw [← State.afterReset, State.afterReset_eq s]
    rfl
  | idle | hdrSkip | recoverId | recoverData | recoverSt5 | recoverSt67 => rfl
  | hdrMatch => exact collect_present (headerCell cfg) ..
  | idAcc | idLast | dataAcc | dataLast | ckCapture => exact collect_present ..
  | endAccept => rw [perform, doEndAccept, collect_present, perform, doEndAccept, collect_eq (by simp)]; rfl
  | endRejectCk | endRejectTerm => exact reject_present ..

theorem cycleAt_present {x : EdgeInput} (h : cycleAt cfg x s = .next t) (ys : List EdgeInput) :
    cycleAt cfg x (s.present ys) = .next (t.present ys) := by
  rw [cycleAt_eq_perform_readDirect] at h ⊢
  exact (perform_present ..).trans (congrArg (thenDo · (State.present ys)) h)

/-- A run over `xs ++ ys` is the run over `xs` and then the run over `ys`. -/
theorem feedAt_append (h : State.feedAt cfg xs s = .next t) (ys : List EdgeInput) :
    State.feedAt cfg (xs ++ ys) s = State.feedAt cfg ys t := by
  induction xs generalizing s with
  | nil =>
    obtain rfl : s.present [] = t := Host.Outcome.next.inj h
    rfl
  | cons x xs ih =>
    obtain ⟨u, hu, -⟩ := cycleAt_anyEffect x (s.advance xs)
    rw [feedAt_cons hu] at h
    have hcons : State.feedAt cfg (x :: (xs ++ ys)) s = State.feedAt cfg (xs ++ ys) (u.present (xs ++ ys)) :=
      feedAt_cons (cycleAt_present hu (xs ++ ys))
    exact hcons.trans (ih h)

end Runs

/-! Runs without a byte. -/

/-- Settles O45: an idle edge clears `fv` alone; the first reset edge gives the reset values, the others keep them. -/
theorem emptyStreamEmitsNothing : Obligations.EmptyStreamEmitsNothing := by
  refine ⟨fun s xs hidle => ?_, fun s xs hne hrst => ?_⟩
  · rw [← feedAt_std]
    exact feedAt_keeps (cfg := Config.std)
      (fun _ _ h => ⟨h, h⟩) (fun x hx u h => ⟨u.clearFv, cycleAt_of_idles (hidle x hx), h⟩)
      ⟨rfl, rfl, rfl, rfl, rfl⟩
  · obtain ⟨x, xs, rfl⟩ := List.exists_cons_of_ne_nil hne
    rw [List.forall_mem_cons] at hrst
    obtain ⟨hx, hxs⟩ := hrst
    rw [← feedAt_std, feedAt_cons (cycleAt_of_rst hx)]
    exact feedAt_keeps (cfg := Config.std)
      (fun _ _ h => ⟨h, h⟩)
      (fun x hx u ⟨_, _, _, _, hem⟩ => ⟨u.afterReset, cycleAt_of_rst (hxs x hx), rfl, rfl, Memory.read_clear, rfl,
        u.afterReset_emitted.trans hem⟩)
      ⟨rfl, rfl, Memory.read_clear, rfl, State.afterReset_emitted _⟩

/-! Frames fed from `WAIT_HDR`. -/

section Frames

variable {cfg : Config} {f : Frame} {s : State cfg.cntW}

theorem byteStream_append (bs cs : List Byte) : byteStream (bs ++ cs) = byteStream bs ++ byteStream cs :=
  List.map_append

@[simp] theorem length_byteStream (bs : List Byte) : (byteStream bs).length = bs.length := List.length_map ..

theorem Frame.sized_of_accepted (h : f.accepted cfg = true) : f.sized cfg = true := by
  simp only [Frame.accepted, Bool.and_eq_true] at h
  obtain ⟨⟨hf, -⟩, -⟩ := h
  exact hf

/-- An accepted frame, fed whole, is emitted at its last byte, with no discard, and stands in the buffer in an open
window (R110). -/
theorem feedAt_accepted (hv : cfg.valid = true) (ha : f.accepted cfg = true) (hs : s.st = St.waitHdr) :
    ∃ t, State.feedAt cfg (byteStream f.bytes) s = .next t ∧ t.st = St.waitHdr ∧ t.cnt = 0#cfg.cntW ∧ t.fv = true ∧
      t.window = true ∧ Frame.ofBuf cfg t.buf = f ∧ t.discards = s.discards ∧
      t.emitted = s.emitted ++ [{ edge := s.edge + cfg.frameLen, frame := f }] := by
  have hf := Frame.sized_of_accepted ha
  obtain ⟨u, hfeed, hu, hedge, hem, hdis⟩ := feedAt_beforeEnd hv hf ((Frame.accepted_iff hf).mp ha).1 hs
  obtain ⟨t, ht, hst, hcnt, hfv, hwin, hbuf, hdist, hemt⟩ := feedAt_end_accept hf ha hu
  exact ⟨t, hfeed.trans ht, hst, hcnt, hfv, hwin, hbuf, hdist.trans hdis, by rw [hemt, hem, hedge]; rfl⟩

/-- A frame headed by `HDR_MARK` that is not accepted, fed whole, emits nothing and leads back to `WAIT_HDR`. -/
theorem feedAt_rejected (hv : cfg.valid = true) (hf : f.sized cfg = true) (hh : f.header = cfg.hdrMark)
    (ha : f.accepted cfg = false) (hs : s.st = St.waitHdr) :
    ∃ t, State.feedAt cfg (byteStream f.bytes) s = .next t ∧ t.st = St.waitHdr ∧ t.emitted = s.emitted := by
  obtain ⟨u, hfeed, hu, -, hem, -⟩ := feedAt_beforeEnd hv hf hh hs
  obtain ⟨t, ht, hst, hemt⟩ := feedAt_end_reject hf hh ha hu
  exact ⟨t, hfeed.trans ht, hst, hemt.trans hem⟩

/-- An accepted frame after any bytes that lead to `WAIT_HDR` (R109, R111). -/
theorem feedAt_append_accepted (hv : cfg.valid = true) {bs : List Byte} {u : State cfg.cntW}
    (hu : State.feedAt cfg (byteStream bs) s = .next u) (hst : u.st = St.waitHdr) (ha : f.accepted cfg = true) :
    ∃ t, State.feedAt cfg (byteStream (bs ++ f.bytes)) s = .next t ∧ t.fv = true ∧
      t.emitted = u.emitted ++ [{ edge := s.edge + bs.length + cfg.frameLen, frame := f }] := by
  obtain ⟨t, ht, -, -, hfv, -, -, -, hem⟩ := feedAt_accepted hv ha hst
  rw [feedAt_edge hu, length_byteStream] at hem
  rw [byteStream_append, feedAt_append hu]
  exact ⟨t, ht, hfv, hem⟩

end Frames

/-- Settles O39, by the accepted frame fed whole and what the ports show in the window it leaves. -/
theorem roundTripEmitsTheFrame : Obligations.RoundTripEmitsTheFrame := by
  intro s f hf hs hh hck hend
  have ha := (Frame.accepted_std_iff hf).mpr ⟨hh, hck, hend⟩
  obtain ⟨t, ht, hst, hcnt, hfv, hwin, hbuf, hdis, hem⟩ := feedAt_accepted (cfg := Config.std) Config.std_valid ha hs
  rw [feedAt_std] at ht
  exact ⟨t, ht, hbuf, hem, hdis, hst, hcnt, hfv, by rw [State.frameOut, if_pos hwin, hbuf],
    by rw [State.frameIgnorable, if_pos hwin, hbuf]⟩

/-- Settles O40: the first frame, emitted or not, leads to `WAIT_HDR`, from where the second is emitted. -/
theorem backToBackFramesAreBothEmitted : Obligations.BackToBackFramesAreBothEmitted := by
  intro s f g hs hg
  refine ⟨fun hf => ?_, fun hf hh hbad => ?_⟩
  · obtain ⟨u, hu, hst, -, -, -, -, -, hem⟩ := feedAt_accepted (cfg := Config.std) Config.std_valid hf hs
    obtain ⟨t, ht, -, hemt⟩ := feedAt_append_accepted Config.std_valid hu hst hg
    rw [feedAt_std] at ht
    rw [hem, Frame.length_bytes (Frame.sized_of_accepted hf), List.append_assoc] at hemt
    exact ⟨t, ht, hemt⟩
  · have hrej : f.accepted Config.std = false := by simp [Frame.accepted, hbad]
    obtain ⟨u, hu, hst, hem⟩ := feedAt_rejected (cfg := Config.std) Config.std_valid hf hh hrej hs
    obtain ⟨t, ht, -, hemt⟩ := feedAt_append_accepted Config.std_valid hu hst hg
    rw [feedAt_std] at ht
    rw [hem, Frame.length_bytes hf] at hemt
    exact ⟨t, ht, hemt⟩

/-! Garbage before a frame (R109). -/

section Garbage

variable {cfg : Config} {s : State cfg.cntW}

/-- Bytes other than `HDR_MARK` keep `WAIT_HDR` and emit nothing. -/
theorem feedAt_skipped {bs : List Byte} (hs : s.st = St.waitHdr) (hbs : ∀ b ∈ bs, b ≠ cfg.hdrMark) :
    ∃ t, State.feedAt cfg (byteStream bs) s = .next t ∧ t.st = St.waitHdr ∧ t.emitted = s.emitted := by
  refine feedAt_keeps (fun _ _ h => ⟨h, h⟩) ?_ ⟨hs, rfl⟩
  intro x hx u hu
  obtain ⟨b, hb, rfl⟩ := List.mem_map.mp hx
  exact ⟨u.closeWindow, cycleAt_skip hu.1 (hbs b hb), hu⟩

theorem AnyEdgeEffect.st_eq_of_fv {x : EdgeInput} {t : State cfg.cntW} (he : AnyEdgeEffect cfg x s t)
    (hfv : t.fv = true) : s.st = St.collectEnd := by
  cases he with
  | accept h => exact h.st_eq
  | _ => cases hfv

/-- A run of bytes that does not reach past the end byte's position ends with `fv` 0. -/
theorem feedAt_fv_of_short {bs : List Byte} (hne : bs ≠ [])
    (hlen : position cfg s.st s.cnt + bs.length ≤ cfg.endPos) :
    ∃ t, State.feedAt cfg (byteStream bs) s = .next t ∧ t.fv = false := by
  induction bs generalizing s with
  | nil => exact absurd rfl hne
  | cons b bs ih =>
    rw [List.length_cons] at hlen
    obtain ⟨u, hu, he⟩ := cycleAt_anyEffect (byteEdge b) (s.advance (byteStream bs))
    have hpos := he.position_le
    rw [State.advance_st, State.advance_cnt] at hpos
    have hfv : u.fv = false := Bool.eq_false_iff.mpr fun h => by
      have hend : s.st = St.collectEnd := he.st_eq_of_fv h
      rw [hend, position_collectEnd] at hlen
      omega
    rw [show byteStream (b :: bs) = byteEdge b :: byteStream bs from rfl, feedAt_cons hu]
    by_cases hbs : bs = []
    · subst hbs
      exact ⟨_, feedAt_nil u, hfv⟩
    · exact ih hbs (by omega)

/-- As many bytes as a frame has, fed from outside `WAIT_HDR`, end with `fv` 0: some of them lead back to `WAIT_HDR`,
and those left are too few for a frame. -/
theorem feedAt_fv_of_busy (hv : cfg.valid = true) (hs : s.st ≠ St.waitHdr) {bs : List Byte}
    (hlen : bs.length = cfg.frameLen) : ∃ t, State.feedAt cfg (byteStream bs) s = .next t ∧ t.fv = false := by
  have hle := bytesNeeded_le cfg s.st s.cnt
  have hpos : 0 < bytesNeeded cfg s.st s.cnt := Nat.pos_of_ne_zero (mt waitHdr_of_bytesNeeded_eq_zero hs)
  generalize hn : bytesNeeded cfg s.st s.cnt = n at hle hpos
  have hend := cfg.endPos_add_one
  have hrest : (bs.drop n).length = cfg.frameLen - n := by rw [List.length_drop, hlen]
  obtain ⟨u, hu, hst⟩ := feedAt_bytesNeeded hv (bs.take n) s (by rw [hn, List.length_take]; omega)
  rw [← List.take_append_drop n bs, byteStream_append, feedAt_append hu]
  refine feedAt_fv_of_short (List.ne_nil_of_length_pos (by omega)) ?_
  rw [hst, position_waitHdr]
  omega

end Garbage

/-- Settles O41: from `WAIT_HDR` the frame is emitted at its last byte, from elsewhere `fv` is 0 there; and garbage
without `HDR_MARK` is skipped. -/
theorem resynchronisesAfterGarbage : Obligations.ResynchronisesAfterGarbage := by
  intro s G f hs ha
  obtain ⟨g, hg, -⟩ := exists_feedAt (cfg := Config.std) (byteStream G) s
  have hquiet : (∀ b ∈ G, b ≠ 0x53#8) → g.st = St.waitHdr ∧ g.emitted = s.emitted := fun hG => by
    obtain ⟨u, hu, hst, hem⟩ := feedAt_skipped (cfg := Config.std) hs hG
    obtain rfl : g = u := Host.Outcome.next.inj (hg.symm.trans hu)
    exact ⟨hst, hem⟩
  by_cases hst : g.st = St.waitHdr
  · obtain ⟨t, ht, hfv, hem⟩ := feedAt_append_accepted Config.std_valid hg hst ha
    rw [feedAt_std] at hg ht
    refine ⟨g, t, hg, ht, by simp [hst, hfv, hem], by simp [hst, hfv], fun hG => ?_⟩
    obtain ⟨-, hsame⟩ := hquiet hG
    exact ⟨hst, hsame, hsame ▸ hem⟩
  · obtain ⟨t, ht, hfv⟩ :=
      feedAt_fv_of_busy Config.std_valid hst (Frame.length_bytes (Frame.sized_of_accepted ha))
    rw [← feedAt_append hg, ← byteStream_append, feedAt_std] at ht
    rw [feedAt_std] at hg
    exact ⟨g, t, hg, ht, by simp [hst, hfv], by simp [hst, hfv], fun hG => absurd (hquiet hG).1 hst⟩

end Sys2Proof.Machine
end

section
/-! Proofs: what of the state and the input an edge depends on (R91, R105, R106, R108). -/

namespace Sys2Proof.Machine

/-! What an operation does to the control registers (R92 to R104). -/

/-- The next `st` and `cnt` of an operation. -/
def nextSeq (op : Op) (st : StCode) {cntW : Nat} (cnt : BitVec cntW) : StCode × BitVec cntW :=
  match op with
  | .idle | .hdrSkip => (st, cnt)
  | .hdrMatch => (St.collectId, 0#cntW)
  | .idAcc | .dataAcc => (st, cnt + 1#cntW)
  | .idLast => (St.collectData, 0#cntW)
  | .dataLast => (St.collectCk, 0#cntW)
  | .ckCapture => (St.collectEnd, 0#cntW)
  | .reset | .recoverId | .recoverData | .endAccept | .endRejectCk | .endRejectTerm | .recoverSt5 | .recoverSt67 =>
    (St.waitHdr, 0#cntW)

theorem collect_control {cfg : Config} {cntW : Nat} {a : CellAddr cfg} {b : Byte} {st : StCode} {cnt : BitVec cntW}
    {s t : State cntW} (h : collect cfg a b st cnt s = .next t) : (t.st, t.cnt) = (st, cnt) ∧ t.fv = false := by
  obtain ⟨-, rfl⟩ := storeCell_next h
  exact ⟨rfl, rfl⟩

/-- An operation reads `st` and `cnt` alone to write them, and END_ACCEPT alone sets `fv`. -/
theorem perform_control {cfg : Config} {cntW : Nat} {i : Instr} {s t : State cntW} (h : perform cfg i s = .next t) :
    (t.st, t.cnt) = nextSeq i.op s.st s.cnt ∧ t.fv = decide (i.op = .endAccept) := by
  cases i with
  | hdrMatch => exact collect_control (a := headerCell cfg) h
  | idAcc | idLast | dataAcc | dataLast | ckCapture => exact collect_control h
  | endAccept =>
    rw [perform, doEndAccept, collect_eq (by simp)] at h
    cases h; exact ⟨rfl, rfl⟩
  | endRejectCk | endRejectTerm => cases (reject_eq ..).symm.trans h; exact ⟨rfl, rfl⟩
  | reset | idle | hdrSkip | recoverId | recoverData | recoverSt5 | recoverSt67 => cases h; exact ⟨rfl, rfl⟩

/-- The same of an edge, by the operation it selects. -/
theorem cycle_control {x : EdgeInput} {s t : State} (h : cycle x s = .next t) :
    (t.st, t.cnt) = nextSeq (readDirect Config.std x.rst x.inValid (ckOk Config.std s.buf) s.st s.cnt x.inByte).op
        s.st s.cnt ∧
      t.fv = decide
        ((readDirect Config.std x.rst x.inValid (ckOk Config.std s.buf) s.st s.cnt x.inByte).op = .endAccept) := by
  rw [← cycleAt_std, cycleAt_eq_perform_readDirect] at h
  exact perform_control h

/-- Settles O49: `ck_ok`, and with it the operation, is the same in both states. -/
theorem acceptanceReadsOnlyFourCells : Obligations.AcceptanceReadsOnlyFourCells := by
  intro x s u hst hcnt hcells
  have hck : ckOk Config.std s.buf = ckOk Config.std u.buf := by
    rw [ckOk_std, ckOk_std, hcells 9 (by decide) (by decide), hcells 10 (by decide) (by decide),
      hcells 11 (by decide) (by decide), hcells 12 (by decide) (by decide)]
  obtain ⟨s', hs, -⟩ := cycle_effect x s
  obtain ⟨u', hu, -⟩ := cycle_effect x u
  obtain ⟨hseq, hfv⟩ := cycle_control hs
  obtain ⟨hseq', hfv'⟩ := cycle_control hu
  rw [hck, hst, hcnt, ← hseq', Prod.mk.injEq] at hseq
  rw [hck, hst, hcnt, ← hfv'] at hfv
  exact ⟨s', u', hs, hu, hseq.1, hseq.2, hfv⟩

/-! A header byte inside a frame (R105). -/

/-- Outside `WAIT_HDR` the next `st` and `cnt` are the same for every byte. -/
theorem nextSeq_readDirect_byte (cfg : Config) (ck : Bool) {st : StCode} (h : st ≠ St.waitHdr) {n : Nat}
    (cnt : BitVec n) (b c : Byte) :
    nextSeq (readDirect cfg false true ck st cnt b).op st cnt =
      nextSeq (readDirect cfg false true ck st cnt c).op st cnt := by
  have hend : ∀ d, nextSeq (readDirect cfg false true ck St.collectEnd cnt d).op St.collectEnd cnt =
      (St.waitHdr, 0#n) := fun d => by
    rw [readDirect_collectEnd]
    split_ifs <;> rfl
  rcases StCode.cases st with rfl | rfl | rfl | rfl | rfl | rfl | rfl | rfl
  · exact absurd rfl h
  · rw [readDirect_collectId, readDirect_collectId]
    split_ifs <;> rfl
  · rw [readDirect_collectData, readDirect_collectData]
    split_ifs <;> rfl
  · rfl
  · rw [hend b, hend c]
  all_goals rfl

/-- In a frame in progress a header byte is data or a terminator. -/
theorem readDirect_header_mem (ck : Bool) {st : StCode} {cnt : BitVec 3} (h : InFrame Config.std st cnt) :
    readDirect Config.std false true ck st cnt 0x53 ∈
      [Instr.idAcc 0x53, Instr.idLast 0x53, Instr.dataAcc 0x53, Instr.dataLast 0x53, Instr.ckCapture 0x53,
        Instr.endRejectTerm 0x53] := by
  rcases inFrame_iff.mp h with ⟨rfl, hlt⟩ | ⟨rfl, hlt⟩ | rfl | rfl
  · rw [readDirect_collectId, if_neg hlt.not_ge]
    split_ifs <;> simp
  · rw [readDirect_collectData, if_neg hlt.not_ge]
    split_ifs <;> simp
  · simp
  · simp

/-- Settles O43: what a header byte selects in each phase, and the next `st` and `cnt` by the operation. -/
theorem noMidFrameResynchronisation : Obligations.NoMidFrameResynchronisation := by
  refine ⟨fun s hst hleg => ?_, fun s b c hst => ?_⟩
  · have hin : InFrame Config.std s.st s.cnt := ⟨hst, hleg⟩
    have hdecode := decode_wordOf_std (byteEdge 0x53) s
    obtain ⟨t, ht, he⟩ := cycle_effect (byteEdge 0x53) s
    obtain ⟨hread, -⟩ := he.of_inFrame rfl hin
    exact ⟨_, readDirect_header_mem _ hin, hdecode, t, (cycle_of_decode hdecode).symm.trans ht, hread⟩
  · obtain ⟨t, ht, -⟩ := cycle_effect (byteEdge b) s
    obtain ⟨u, hu, -⟩ := cycle_effect (byteEdge c) s
    have hseq : (t.st, t.cnt) = (u.st, u.cnt) :=
      (cycle_control ht).1.trans ((nextSeq_readDirect_byte _ _ hst s.cnt b c).trans (cycle_control hu).1.symm)
    rw [Prod.mk.injEq] at hseq
    exact ⟨t, u, ht, hu, hseq.1, hseq.2⟩

/-! Runs with and without their idle edges (R91). -/

/-- The two states agree in all that the frames accepted from now on, and those accepted so far, depend on. -/
structure SameFrames {cntW : Nat} (s u : State cntW) : Prop where
  st_eq : s.st = u.st
  cnt_eq : s.cnt = u.cnt
  buf_eq : s.buf = u.buf
  frames_eq : (s.emitted.map fun e => e.frame) = u.emitted.map fun e => e.frame

section SameFrames

variable {cfg : Config}

theorem collect_sameFrames {cntW : Nat} {a : CellAddr cfg} {b : Byte} {st : StCode} {cnt : BitVec cntW}
    {s t u : State cntW} (h : collect cfg a b st cnt s = .next t) (hsu : SameFrames s u) :
    ∃ v, collect cfg a b st cnt u = .next v ∧ SameFrames t v := by
  obtain ⟨ha, rfl⟩ := storeCell_next h
  exact ⟨_, collect_eq ha .., rfl, rfl, congrArg (Memory.write · a.toNat b) hsu.buf_eq, hsu.frames_eq⟩

theorem reject_sameFrames {cntW : Nat} {rs : List Cause} {b : Byte} {s t u : State cntW}
    (h : reject cfg rs b s = .next t) (hsu : SameFrames s u) (rs' : List Cause) :
    ∃ v, reject cfg rs' b u = .next v ∧ SameFrames t v := by
  cases (reject_eq ..).symm.trans h
  exact ⟨_, reject_eq .., rfl, rfl, congrArg (Memory.write · cfg.endPos b) hsu.buf_eq, hsu.frames_eq⟩

theorem SameFrames.emit {cntW : Nat} {s u : State cntW} (h : SameFrames s u) :
    SameFrames (s.emit cfg) (u.emit cfg) where
  st_eq := h.st_eq
  cnt_eq := h.cnt_eq
  buf_eq := h.buf_eq
  frames_eq := by simp [h.frames_eq, h.buf_eq]

theorem SameFrames.afterReset {cntW : Nat} {s u : State cntW} (h : SameFrames s u) :
    SameFrames s.afterReset u.afterReset where
  st_eq := rfl
  cnt_eq := rfl
  buf_eq := rfl
  frames_eq := by simpa using h.frames_eq

/-- An operation takes states that agree to states that agree. -/
theorem perform_sameFrames {cntW : Nat} {i : Instr} {s t u : State cntW} (h : perform cfg i s = .next t)
    (hsu : SameFrames s u) : ∃ v, perform cfg i u = .next v ∧ SameFrames t v := by
  have hcnt := hsu.cnt_eq
  have hst := hsu.st_eq
  cases i with
  | reset => cases h; exact ⟨_, rfl, hsu.afterReset⟩
  | idle | hdrSkip => cases h; exact ⟨_, rfl, hst, hcnt, hsu.buf_eq, hsu.frames_eq⟩
  | recoverId | recoverData | recoverSt5 | recoverSt67 => cases h; exact ⟨_, rfl, rfl, rfl, hsu.buf_eq, hsu.frames_eq⟩
  | hdrMatch => exact collect_sameFrames (a := headerCell cfg) h hsu
  | ckCapture => exact collect_sameFrames h hsu
  | idAcc => rw [perform, doIdAcc, hst, hcnt] at h; exact collect_sameFrames h hsu
  | idLast => rw [perform, doIdLast, hcnt] at h; exact collect_sameFrames h hsu
  | dataAcc => rw [perform, doDataAcc, hst, hcnt] at h; exact collect_sameFrames h hsu
  | dataLast => rw [perform, doDataLast, hcnt] at h; exact collect_sameFrames h hsu
  | endAccept b =>
    have hc := collect_eq (cfg := cfg) (a := endCell cfg) (by simp) b St.waitHdr 0#cntW s
    obtain ⟨v, hv, hsame⟩ := collect_sameFrames hc hsu
    rw [perform, doEndAccept, hc] at h
    cases h
    exact ⟨v.emit cfg, by rw [perform, doEndAccept, hv]; rfl, hsame.emit⟩
  | endRejectCk | endRejectTerm => exact reject_sameFrames h hsu _

theorem cycleAt_sameFrames {x : EdgeInput} {s t u : State cfg.cntW} (h : cycleAt cfg x s = .next t)
    (hsu : SameFrames s u) : ∃ v, cycleAt cfg x u = .next v ∧ SameFrames t v := by
  rw [cycleAt_eq_perform_readDirect] at h ⊢
  rw [← hsu.st_eq, ← hsu.cnt_eq, ← hsu.buf_eq]
  exact perform_sameFrames h hsu

/-- The run without the idle edges ends in a state that agrees. -/
theorem feedAt_sameFrames (xs : List EdgeInput) {s u : State cfg.cntW} (hsu : SameFrames s u) :
    ∃ t v, State.feedAt cfg xs s = .next t ∧ State.feedAt cfg (xs.filter fun x => !x.idles) u = .next v ∧
      SameFrames t v := by
  induction xs generalizing s u with
  | nil => exact ⟨_, _, feedAt_nil s, feedAt_nil u, hsu.st_eq, hsu.cnt_eq, hsu.buf_eq, hsu.frames_eq⟩
  | cons x xs ih =>
    by_cases hx : x.idles = true
    · rw [List.filter_cons_of_neg (by simp [hx]), feedAt_cons (cycleAt_of_idles hx)]
      exact ih ⟨hsu.st_eq, hsu.cnt_eq, hsu.buf_eq, hsu.frames_eq⟩
    · obtain ⟨t, ht, -⟩ := cycleAt_anyEffect x (s.advance xs)
      have hadv : SameFrames (s.advance xs) (u.advance (xs.filter fun x => !x.idles)) :=
        ⟨hsu.st_eq, hsu.cnt_eq, hsu.buf_eq, hsu.frames_eq⟩
      obtain ⟨v, hv, htv⟩ := cycleAt_sameFrames ht hadv
      rw [List.filter_cons_of_pos (by simp [hx]), feedAt_cons ht, feedAt_cons hv]
      exact ih htv

end SameFrames

/-- `parseByte` answers the state its consuming edge leaves, and whether the edge added a frame. -/
theorem parseByte_of_cycle {s t : State} {b : Byte} (h : cycle (byteEdge b) (s.advance s.inputs) = .next t) :
    parseByte s b = some (t, (newFrame s t).isSome) := by
  simp [parseByte, h]

/-- Settles O44: an END_ACCEPT edge alone adds a frame, and an idle edge leaves all that the frames depend on. -/
theorem acceptedFramesIgnoreIdleEdges : Obligations.AcceptedFramesIgnoreIdleEdges := by
  refine ⟨fun s b => ?_, fun s xs => ?_⟩
  · obtain ⟨t, ht, he⟩ := cycle_effect (byteEdge b) (s.advance s.inputs)
    have haccept : decode Config.std (wordOf Config.std (byteEdge b) s) = .ok (.endAccept b) ↔
        AcceptsFrame Config.std (byteEdge b) (s.advance s.inputs) :=
      decode_wordOf_eq_endAccept_iff (x := byteEdge b) (s := s.advance s.inputs)
    refine ⟨t, ht, ?_⟩
    rw [parseByte_of_cycle ht, haccept]
    rcases he.emits_or_not with ⟨hacc, hfv, hem⟩ | ⟨hacc, hfv, hem⟩
    · simp [hacc, hfv, newFrame_of_emitted_append (s := s) hem]
    · simp [hacc, hfv, newFrame_of_emitted_eq (s := s) hem]
  · obtain ⟨t, v, ht, hv, hsame⟩ := feedAt_sameFrames (cfg := Config.std) xs (s := s) ⟨rfl, rfl, rfl, rfl⟩
    rw [feedAt_std] at ht hv
    exact ⟨t, v, ht, hv, hsame.st_eq, hsame.cnt_eq, hsame.buf_eq, hsame.frames_eq⟩

end Sys2Proof.Machine
end

section
/-! Proofs: what every emitted frame meets, what is left of its consumer's test, and the swaps the checksum does not
detect (R130, R133, R137). -/

namespace Sys2Proof.Machine

/-! The emitted frames (R133). -/

section Emitted

variable {cfg : Config} {x : EdgeInput} {s t : State cfg.cntW}

/-- While a frame is in progress, cell 0 holds its header. -/
theorem SequencingInv.read_zero {cntW : Nat} {s : State cntW} (h : SequencingInv cfg s) (hst : s.st ≠ St.waitHdr) :
    s.buf.read 0 = cfg.hdrMark := by
  rcases sequencingInv_iff.mp h with ⟨hw, -⟩ | ⟨-, hhead, -⟩
  · exact absurd hw hst
  · exact hhead

/-- The frame of an END_ACCEPT edge: its header has stood in cell 0 since it was matched, `ck_ok` is its checksum test,
whatever its end byte, and the byte consumed is its end byte (R101, R131). -/
theorem AcceptsFrame.accepted_ofBuf (h : AcceptsFrame cfg x s) (hs : SequencingInv cfg s) :
    (Frame.ofBuf cfg (s.buf.write cfg.endPos x.inByte)).accepted cfg = true := by
  have hst : s.st ≠ St.waitHdr := by simp [h.st_eq]
  have hck : (Frame.ofBuf cfg (s.buf.write cfg.endPos x.inByte)).validateChecksum cfg = true := by
    rw [Frame.ofBuf_write_end]
    exact h.ckOk_eq
  exact (Frame.accepted_iff (Frame.sized_ofBuf _)).mpr
    ⟨(Memory.read_write_ne _ (by simp) _).trans (hs.read_zero hst), (validateChecksum_iff _).mp hck,
      (Memory.read_write_same ..).trans h.inByte_eq⟩

theorem AnyEdgeEffect.emittedAccepted (he : AnyEdgeEffect cfg x s t) (hs : SequencingInv cfg s)
    (h : EmittedAccepted cfg s) : EmittedAccepted cfg t := by
  cases he with
  | accept hacc =>
    intro e hmem
    rcases List.mem_append.mp hmem with hold | hnew
    · exact h e hold
    · rw [List.mem_singleton.mp hnew]
      exact hacc.accepted_ofBuf hs
  | reset => rwa [EmittedAccepted, State.afterReset_emitted]
  | _ => exact h

/-- Every step from a state of the sequencing invariant emits accepted frames alone. -/
theorem stepAt_emittedAccepted (hs : SequencingInv cfg s) (h : EmittedAccepted cfg s) :
    ∃ t, stepAt cfg s = .next t ∧ EmittedAccepted cfg t :=
  stepAt_keeps h fun _ _ _ he => he.emittedAccepted hs h

end Emitted

/-- Settles O34: END_ACCEPT alone adds a frame, and the invariant, `ck_ok` and its operand make that frame an accepted
one. -/
theorem emittedFramesAreWellFormed : Obligations.EmittedFramesAreWellFormed := by
  intro cfg s hs h
  obtain ⟨t, ht, hacc⟩ := stepAt_emittedAccepted hs h
  refine ⟨t, ht, hacc, fun e he => ?_⟩
  have hsized := Frame.sized_of_accepted (hacc e he)
  obtain ⟨hhead, hck, hend⟩ := (Frame.accepted_iff hsized).mp (hacc e he)
  exact ⟨hhead, hend, hsized, hck⟩

/-! The consumer's test (R137). -/

/-- On an accepted frame the checksum part of the consumer's test is false. -/
theorem Frame.consumerDiscards_of_accepted {cfg : Config} {f : Frame} (h : f.accepted cfg = true) :
    f.consumerDiscards cfg = f.canIgnoreMagic cfg := by
  rw [Frame.consumerDiscards, Frame.validateChecksum_of_accepted h, Bool.not_true, Bool.or_false]

/-- Settles O48: the frames emitted are accepted ones, so the ignorable test is left. -/
theorem consumerChecksumTestIsDead : Obligations.ConsumerChecksumTestIsDead := by
  intro s hs h
  obtain ⟨t, ht, hacc⟩ := stepAt_emittedAccepted hs h
  refine ⟨t, (stepAt_std s).symm.trans ht, fun e he => ?_⟩
  rw [Frame.consumerDiscards_of_accepted (hacc e he)]
  exact Bool.beq_eq_decide_eq ..

/-! The sum of three bytes (R130). -/

theorem sum8_toNat (c i k : Byte) : (sum8 c i k).toNat = (c.toNat + i.toNat + k.toNat) % 256 :=
  sumBits_toNat 8 c i k

/-- Three bytes in another order have the same sum. -/
theorem sum_toNat_of_perm {c i k c' i' k' : Byte} (h : [c, i, k].Perm [c', i', k']) :
    c.toNat + i.toNat + k.toNat = c'.toNat + i'.toNat + k'.toNat := by
  simpa [Nat.add_assoc] using (h.map BitVec.toNat).sum_eq

/-- `sum8` does not depend on the order of the three bytes. -/
theorem sum8_of_perm {c i k c' i' k' : Byte} (h : [c, i, k].Perm [c', i', k']) : sum8 c i k = sum8 c' i' k' := by
  rw [← BitVec.toNat_inj, sum8_toNat, sum8_toNat, sum_toNat_of_perm h]

/-- Settles O25: the sum is that of the numbers, which no permutation of the three bytes changes. -/
theorem sumOfThreeBytesModulo256 : Obligations.SumOfThreeBytesModulo256 := by
  refine ⟨fun c i k => ⟨sum8_toNat c i k, ?_, sum8_of_perm (.swap ..), sum8_of_perm (.cons c (.swap ..))⟩,
    by decide, by decide, fun f g hck hperm => ?_⟩
  · have hc := c.isLt
    have hi := i.isLt
    have hk := k.isLt
    omega
  · rw [validateChecksum_std, validateChecksum_std, sum8_of_perm hperm, hck]

end Sys2Proof.Machine
end

section
/-! Proofs: no step faults, hangs or stops (R5, R151), and what events a step records (R150, R153, R154). -/

namespace Sys2Proof.Machine

/-! Every step goes on (R151). -/

section Progress

variable {cfg : Config} {s : State cfg.cntW}

/-- A step with an input placed performs an operation on the state whose edge has begun, and the operation answers a
next state. -/
theorem stepAt_cons {x : EdgeInput} {rest : List EdgeInput} (h : s.inputs = x :: rest) :
    ∃ i t, perform cfg i (s.advance rest) = .next t ∧ stepAt cfg s = .next t := by
  obtain ⟨t, ht, -⟩ := cycleAt_anyEffect x (s.advance rest)
  exact ⟨_, t, (cycleAt_eq_perform_readDirect ..).symm.trans ht, (nextEdge_cons h).trans ht⟩

theorem exists_stepAt (s : State cfg.cntW) : ∃ t, stepAt cfg s = .next t := by
  cases hin : s.inputs with
  | nil => exact ⟨s, nextEdge_nil hin⟩
  | cons x rest =>
    obtain ⟨i, t, -, ht⟩ := stepAt_cons hin
    exact ⟨t, ht⟩

end Progress

/-- A machine whose every step answers a next state goes on in every run. -/
theorem exists_run_of_exists_step {M : Host.Core} (h : ∀ s, ∃ t, M.step s = .next t) (n : Nat) (s : M.State) :
    ∃ t, M.run n s = .next t := by
  induction n generalizing s with
  | zero => exact ⟨s, rfl⟩
  | succ n ih =>
    obtain ⟨u, hu⟩ := h s
    obtain ⟨t, ht⟩ := ih u
    refine ⟨t, ?_⟩
    rw [Host.Core.run, hu]
    exact ht

/-- Settles O9: every edge selects an operation that answers a next state, no operation touches the queue or the
edges' count, and a run is made of such steps. -/
theorem noInputFaultsHangsOrStops : Obligations.NoInputFaultsHangsOrStops := by
  refine ⟨fun cfg s x rest hin => ?_, fun _ s => exists_stepAt s, ?_⟩
  · obtain ⟨i, t, hperform, hstep⟩ := stepAt_cons hin
    obtain ⟨hinputs, hedge⟩ := perform_inputs_edge hperform
    exact ⟨t, hstep, hinputs, hedge⟩
  · refine exists_run_of_exists_step (M := Sys2Proof.core) fun s => ?_
    obtain ⟨t, ht⟩ := exists_stepAt (cfg := Config.std) s
    exact ⟨t, (stepAt_std s).symm.trans ht⟩

/-! The events of an edge (R150, R153). -/

section Events

variable {cntW : Nat} {s t : State cntW}

/-- What is recorded from `s` to `t`: nothing, one discard at the edge of `s` with its reasons, or one emission. Both
events lead to `WAIT_HDR` with `cnt` 0 (R101, R154). -/
inductive AtMostOneEvent (s t : State cntW) : Prop
  | quiet (hdis : t.discards = s.discards) (hem : t.emitted = s.emitted)
  | discard (d : Discard cntW) (hne : d.reasons ≠ []) (hnodup : d.reasons.Nodup) (hedge : d.edge = s.edge)
    (hdis : t.discards = s.discards ++ [d]) (hem : t.emitted = s.emitted) (hst : t.st = St.waitHdr)
    (hcnt : t.cnt = 0#cntW)
  | emission (e : Emission) (hdis : t.discards = s.discards) (hem : t.emitted = s.emitted ++ [e])
    (hst : t.st = St.waitHdr) (hcnt : t.cnt = 0#cntW)

theorem collect_event {cfg : Config} {a : CellAddr cfg} {b : Byte} {st : StCode} {cnt : BitVec cntW}
    (h : collect cfg a b st cnt s = .next t) : AtMostOneEvent s t := by
  obtain ⟨-, rfl⟩ := storeCell_next h
  exact .quiet rfl rfl

theorem reject_event {cfg : Config} {rs : List Cause} {b : Byte} (hne : rs ≠ []) (hnodup : rs.Nodup)
    (h : reject cfg rs b s = .next t) : AtMostOneEvent s t := by
  cases (reject_eq ..).symm.trans h
  exact .discard _ hne hnodup rfl rfl rfl rfl rfl

theorem recover_event {b : Byte} (h : recover b s = .next t) : AtMostOneEvent s t := by
  cases h
  exact .discard _ (List.cons_ne_nil _ _) (List.nodup_singleton _) rfl rfl rfl rfl rfl

/-- A reset edge discards the frame in progress, if there is one (R92). -/
theorem State.afterReset_event (s : State cntW) : AtMostOneEvent s s.afterReset := by
  by_cases hw : s.st = St.waitHdr
  · exact .quiet (s.afterReset_discards.trans (if_pos hw)) s.afterReset_emitted
  · exact .discard _ (List.cons_ne_nil _ _) (List.nodup_singleton _) rfl (s.afterReset_discards.trans (if_neg hw))
      s.afterReset_emitted rfl rfl

/-- An operation records at most one event. -/
theorem perform_event {cfg : Config} {i : Instr} (h : perform cfg i s = .next t) : AtMostOneEvent s t := by
  cases i with
  | reset => cases h; exact s.afterReset_event
  | idle | hdrSkip => cases h; exact .quiet rfl rfl
  | hdrMatch => exact collect_event (a := headerCell cfg) h
  | idAcc | idLast | dataAcc | dataLast | ckCapture => exact collect_event h
  | recoverId | recoverData | recoverSt5 | recoverSt67 => exact recover_event h
  | endAccept =>
    rw [perform, doEndAccept, collect_eq (by simp)] at h
    cases h
    exact .emission _ rfl rfl rfl rfl
  | endRejectCk => exact reject_event (rs := [.ck]) (List.cons_ne_nil _ _) (List.nodup_singleton _) h
  | endRejectTerm =>
    obtain ⟨hterm, -, -, -, hnodup⟩ := termCauses_spec (ckOk cfg s.buf)
    exact reject_event (List.ne_nil_of_mem hterm) hnodup h

/-- The edge that begins is later than every discard recorded. -/
theorem DiscardsInv.advance (h : DiscardsInv s) (rest : List EdgeInput) : DiscardsInv (s.advance rest) := by
  intro d hd
  obtain ⟨hne, hnodup, hedge⟩ := h d hd
  exact ⟨hne, hnodup, Nat.le_succ_of_le hedge⟩

theorem AtMostOneEvent.discardsInv (he : AtMostOneEvent s t) (hsame : t.edge = s.edge) (h : DiscardsInv s) :
    DiscardsInv t := by
  cases he with
  | quiet hdis | emission _ hdis => rwa [DiscardsInv, hdis, hsame]
  | discard d hne hnodup hedge hdis =>
    rw [DiscardsInv, hdis, List.forall_mem_append, List.forall_mem_singleton, hsame]
    exact ⟨h, hne, hnodup, hedge.le⟩

end Events

/-- Settles O37: with no input placed the state freezes, and else the step's operation records at most one event. -/
theorem discardEventsAreWellFormed : Obligations.DiscardEventsAreWellFormed := by
  intro cfg s h
  cases hin : s.inputs with
  | nil => exact ⟨s, nextEdge_nil hin, h, .inl ⟨rfl, rfl⟩⟩
  | cons x rest =>
    obtain ⟨i, t, hperform, hstep⟩ := stepAt_cons hin
    have he := perform_event hperform
    refine ⟨t, hstep, he.discardsInv (perform_inputs_edge hperform).2 (h.advance rest), ?_⟩
    cases he with
    | quiet hdis hem => exact .inl ⟨hdis, hem⟩
    | discard d _ _ _ hdis hem hst hcnt => exact .inr (.inl ⟨d, hdis, hem, hst, hcnt⟩)
    | emission e hdis hem hst hcnt => exact .inr (.inr ⟨e, hdis, hem, hst, hcnt⟩)

end Sys2Proof.Machine
end

section
/-! Proofs: recovery without a reset from any registers, reachable or not, those at power-up included (R172, R173), and
the one ending that makes a frame of a given beginning (R180). -/

namespace Sys2Proof.Machine

/-! Bytes consumed on the way to `WAIT_HDR` (R173). -/

section Recovery

variable {cfg : Config} {s : State cfg.cntW} {bs : List Byte}

/-- Up to the count of the recovery table each byte lowers that count by one, whatever the byte. -/
theorem feedAt_bytesNeeded_add_length (hv : cfg.valid = true) (h : bs.length ≤ bytesNeeded cfg s.st s.cnt) :
    ∃ t, State.feedAt cfg (byteStream bs) s = .next t ∧
      bytesNeeded cfg t.st t.cnt + bs.length = bytesNeeded cfg s.st s.cnt := by
  induction bs generalizing s with
  | nil => exact ⟨_, feedAt_nil s, rfl⟩
  | cons b bs ih =>
    rw [List.length_cons] at h
    have hst : s.st ≠ St.waitHdr := fun hw => by simp [hw] at h
    obtain ⟨u, hu, hneed⟩ := cycleAt_bytesNeeded hv (s := s.advance (byteStream bs)) hst b
    rw [State.advance_st, State.advance_cnt] at hneed
    obtain ⟨t, ht, hleft⟩ := ih (s := u) (by omega)
    exact ⟨t, (feedAt_cons hu).trans ht, by rw [List.length_cons]; omega⟩

/-- Fewer bytes than the recovery table gives do not reach `WAIT_HDR`. -/
theorem feedAt_st_ne_waitHdr (hv : cfg.valid = true) (h : bs.length < bytesNeeded cfg s.st s.cnt) :
    ∃ t, State.feedAt cfg (byteStream bs) s = .next t ∧ t.st ≠ St.waitHdr := by
  obtain ⟨t, ht, hleft⟩ := feedAt_bytesNeeded_add_length hv h.le
  refine ⟨t, ht, fun hw => ?_⟩
  rw [hw, bytesNeeded_waitHdr] at hleft
  omega

/-- As many bytes without `HDR_MARK` as the recovery table gives, or more, lead to `WAIT_HDR`: the parser stays there
once it is there. -/
theorem feedAt_st_of_unheaded (hv : cfg.valid = true) (hlen : bytesNeeded cfg s.st s.cnt ≤ bs.length)
    (hbs : ∀ b ∈ bs, b ≠ cfg.hdrMark) :
    ∃ t, State.feedAt cfg (byteStream bs) s = .next t ∧ t.st = St.waitHdr := by
  obtain ⟨u, hu, hst⟩ :=
    feedAt_bytesNeeded hv (bs.take (bytesNeeded cfg s.st s.cnt)) s (List.length_take_of_le hlen)
  obtain ⟨t, ht, hw, -⟩ :=
    feedAt_skipped (bs := bs.drop (bytesNeeded cfg s.st s.cnt)) hst fun b hb => hbs b (List.mem_of_mem_drop hb)
  rw [← feedAt_append hu, ← byteStream_append, List.take_append_drop] at ht
  exact ⟨t, ht, hw⟩

/-- Bytes other than `END_MARK` emit nothing. -/
theorem feedAt_emitted_of_endless (hbs : ∀ b ∈ bs, b ≠ cfg.endMark) :
    ∃ t, State.feedAt cfg (byteStream bs) s = .next t ∧ t.emitted = s.emitted := by
  refine feedAt_keeps (fun _ _ h => ⟨h, h⟩) ?_ rfl
  intro x hx u hu
  obtain ⟨b, hb, rfl⟩ := List.mem_map.mp hx
  obtain ⟨t, ht, he⟩ := cycleAt_anyEffect (byteEdge b) u
  refine ⟨t, ht, Eq.trans ?_ hu⟩
  cases he with
  | accept h => exact absurd h.inByte_eq (hbs b hb)
  | reset => exact u.afterReset_emitted
  | _ => rfl

end Recovery

/-- Settles O42: each byte lowers the count of the recovery table, bytes without `HDR_MARK` keep `WAIT_HDR`, and the
filler of SYNC is neither `HDR_MARK` nor `END_MARK`. -/
theorem recoversWithinThirteenBytes : Obligations.RecoversWithinThirteenBytes := by
  simp only [Obligations.RecoversWithinThirteenBytes, ← feedAt_std]
  have hthirteen : ∀ (s : State) (bs : List Byte), bs.length = 13 → (∀ b ∈ bs, b ≠ 0x53#8) →
      ∃ t, State.feedAt Config.std (byteStream bs) s = .next t ∧ t.st = St.waitHdr := fun s _ hlen hbs =>
    feedAt_st_of_unheaded Config.std_valid (hlen ▸ bytesNeeded_le Config.std s.st s.cnt) hbs
  refine ⟨fun s bs hlen => ⟨hlen ▸ bytesNeeded_le Config.std s.st s.cnt, ?_, fun k hk => ?_⟩,
    fun s bs hst hbs => ?_, hthirteen, fun s => ?_⟩
  · exact feedAt_bytesNeeded (cfg := Config.std) Config.std_valid bs s hlen
  · exact feedAt_st_ne_waitHdr Config.std_valid (by rwa [List.length_take_of_le hk.le, ← hlen])
  · obtain ⟨t, ht, hw, -⟩ := feedAt_skipped (cfg := Config.std) hst hbs
    exact ⟨t, ht, hw⟩
  · have hfill : ∀ c : Byte, 0xFF#8 ≠ c → ∀ b ∈ List.replicate 13 0xFF#8, b ≠ c := fun c hc b hb =>
      List.eq_of_mem_replicate hb ▸ hc
    obtain ⟨t, ht, hw⟩ := hthirteen s _ List.length_replicate (hfill 0x53#8 (by decide))
    obtain ⟨u, hu, hem⟩ := feedAt_emitted_of_endless (cfg := Config.std) (s := s) (hfill 0x00#8 (by decide))
    obtain rfl : t = u := Host.Outcome.next.inj (ht.symm.trans hu)
    exact ⟨t, ht, hw, hem⟩

/-- Settles O50: a reset edge sets every register, and the recovery table holds for whatever `st` and `cnt` are at
power-up. -/
theorem powerUpNeedsNoReset : Obligations.PowerUpNeedsNoReset := by
  refine ⟨?_, bytesNeeded Config.std State.powerUp.st State.powerUp.cnt,
    bytesNeeded_le Config.std State.powerUp.st State.powerUp.cnt, fun bs hlen => ?_⟩
  · obtain ⟨-, hreset⟩ := emptyStreamEmitsNothing
    obtain ⟨t, ht, hst, hcnt, hbuf, hfv, -⟩ := hreset State.powerUp [resetEdge] (by simp) (by simp [resetEdge])
    exact ⟨t, ht, hst, hcnt, hfv, hbuf⟩
  · obtain ⟨hrecovers, -⟩ := recoversWithinThirteenBytes
    obtain ⟨-, hreached, -⟩ := hrecovers State.powerUp bs hlen
    exact hreached

/-! The ending of a frame (R63, R180). -/

/-- From `WAIT_HDR` the bytes of a frame add an emission exactly where they meet R63. -/
theorem feed_frame_emits_iff {s : State} {f : Frame} (hf : f.sized Config.std = true) (hs : s.st = St.waitHdr) :
    (∃ t e, s.feed (byteStream f.bytes) = .next t ∧ t.emitted = s.emitted ++ [e]) ↔
      f.header = 0x53#8 ∧ f.checksum = sum8 f.command f.intensity f.colorBalance ∧ f.endByte = 0x00#8 := by
  obtain ⟨u, hu, hem⟩ := fourteenBytesAcceptedIff s f hf hs
  refine ⟨fun ⟨t, e, ht, hadd⟩ => ?_, fun hmeets => ⟨u, _, hu, by rw [hem, if_pos hmeets]⟩⟩
  obtain rfl : t = u := Host.Outcome.next.inj (ht.symm.trans hu)
  by_contra hbad
  rw [hem, if_neg hbad] at hadd
  simp at hadd

/-- Settles O47: R63 names the one checksum byte, the sum of the three data bytes, and the one end byte. -/
theorem exactlyOneEndingIsAccepted : Obligations.ExactlyOneEndingIsAccepted := by
  intro s f hf hs hh
  have hiff (p : Byte × Byte) :=
    feed_frame_emits_iff (s := s) (f := { f with checksum := p.1, endByte := p.2 }) hf hs
  refine ⟨(sum8 f.command f.intensity f.colorBalance, 0x00#8), (hiff _).mpr ⟨hh, rfl, rfl⟩, fun p hp => ?_⟩
  obtain ⟨-, hck, hend⟩ := (hiff p).mp hp
  exact Prod.ext hck hend

end Sys2Proof.Machine
end
